-- ==== Sys2Proof/Word.lean ====
section
/-! DEFINITION. The machine's two widths (00_scope.md R3): a byte is 8 bits, a register, a word operand
and an address are 16 bits. Arithmetic on them is that of `BitVec`: modulo 65536 on words (R5). -/

namespace Sys2Proof

/-- A byte of memory or of the instruction stream (R3). -/
abbrev Byte := BitVec 8

/-- A register, a word operand or an address (R3, R5). -/
abbrev Word := BitVec 16

end Sys2Proof
end

