-- ==== Sys2Proof/Syntax.lean ====
section
/-! DEFINITION. The instructions: one constructor of `Instr` for each of the 46 rows of spec/opcode_table.json
(the 41 instructions of the card and the five first bytes it leaves unassigned). Extension words are no part of
an instruction: they are fetched through R7 when the specifier is resolved (30_encoding.md R57, R77; assumption
log 21). -/

namespace Sys2Proof

/-- The eight registers (10_state.md R10); R6 is SP, R7 is PC. -/
inductive Reg where
  | r0 | r1 | r2 | r3 | r4 | r5 | r6 | r7
deriving DecidableEq, Repr

/-- The eight addressing modes (40_addressing_modes.md section 1), in the order of their codes 000 to 111. -/
inductive Mode where
  /-- 000, `Ri` (R74). -/
  | register
  /-- 001, `(Ri)+` (R75). -/
  | postInc
  /-- 010, `-(Ri)` (R76). -/
  | preDec
  /-- 011, `dd16(Ri)` (R77). -/
  | indexed
  /-- 100, `(Ri)` (R78). -/
  | indirect
  /-- 101, `((Ri)+)` (R79). -/
  | postIncIndirect
  /-- 110, `(-(Ri))` (R80). -/
  | preDecIndirect
  /-- 111, `(dd16(Ri))` (R81). -/
  | indexedIndirect
deriving DecidableEq, Repr

/-- An operand specifier: mode and register (30_encoding.md R52). -/
structure Operand where
  mode : Mode
  reg : Reg
deriving DecidableEq, Repr

/-- The mask of CCC and SCC, in the order N Z V C of the byte's bits 3 to 0 (10_state.md R14). -/
structure FlagMask where
  n : Bool
  z : Bool
  v : Bool
  c : Bool
deriving DecidableEq, Repr

/-- The instructions, in the order of the opcode table. -/
inductive Instr where
  /-- R90. -/
  | nop
  /-- R93. -/
  | ccc (mask : FlagMask)
  /-- R94. -/
  | scc (mask : FlagMask)
  /-- R102. -/
  | br (dd8 : Byte)
  /-- R103. -/
  | bne (dd8 : Byte)
  /-- R104. -/
  | beq (dd8 : Byte)
  /-- R105. -/
  | bpl (dd8 : Byte)
  /-- R106. -/
  | bmi (dd8 : Byte)
  /-- R107. -/
  | bvc (dd8 : Byte)
  /-- R108. -/
  | bvs (dd8 : Byte)
  /-- R109. -/
  | bcc (dd8 : Byte)
  /-- R110. -/
  | bcs (dd8 : Byte)
  /-- R111. -/
  | bge (dd8 : Byte)
  /-- R112. -/
  | blt (dd8 : Byte)
  /-- R113. -/
  | bgt (dd8 : Byte)
  /-- R114. -/
  | ble (dd8 : Byte)
  /-- R115. -/
  | bhi (dd8 : Byte)
  /-- R116. -/
  | bls (dd8 : Byte)
  /-- First byte 3Fh, not on the card (R63). -/
  | reserved3F
  /-- R117. -/
  | jmp (target : Operand)
  /-- R118. -/
  | sob (lreg : Reg) (dd8 : Byte)
  /-- R119. -/
  | jsr (lreg : Reg) (target : Operand)
  /-- R120. -/
  | rts (lreg : Reg)
  /-- R131. -/
  | clr (op : Operand)
  /-- R132. -/
  | not (op : Operand)
  /-- R133. -/
  | inc (op : Operand)
  /-- R134. -/
  | dec (op : Operand)
  /-- R135. -/
  | neg (op : Operand)
  /-- R136. -/
  | tst (op : Operand)
  /-- R137. -/
  | ror (op : Operand)
  /-- R138. -/
  | rol (op : Operand)
  /-- R139. -/
  | asr (op : Operand)
  /-- R140. -/
  | asl (op : Operand)
  /-- R141. -/
  | adc (op : Operand)
  /-- R142. -/
  | sbc (op : Operand)
  /-- First byte 8Ch, not on the card (R63). -/
  | reserved8C
  /-- First byte 8Dh, not on the card (R63). -/
  | reserved8D
  /-- First byte 8Eh, not on the card (R63). -/
  | reserved8E
  /-- First byte 8Fh, not on the card (R63). -/
  | reserved8F
  /-- R123. -/
  | mov (src dst : Operand)
  /-- R124. -/
  | add (src dst : Operand)
  /-- R125. -/
  | sub (src dst : Operand)
  /-- R126. -/
  | cmp (src dst : Operand)
  /-- R127. -/
  | and (src dst : Operand)
  /-- R128. -/
  | or (src dst : Operand)
  /-- R91. -/
  | hlt
deriving DecidableEq, Repr

end Sys2Proof
end

