-- ==== Sys2Proof/Decode.lean ====
section
/-! DEFINITION. Decoding and encoding (30_encoding.md). The decoder is total on any list of bytes: it gives the
instruction and the bytes that follow it, or rejects by name a list that ends too early. Every first byte decodes
(R58, R63); the five unassigned ones decode to constructors of their own, whose meaning refuses. The encoder
writes 0 in the don't-care bits (R62, D22). -/

namespace Sys2Proof

/-! ## Fields (R4, R10, R52) -/

/-- The register a 3-bit field names (R10). -/
def Reg.ofBits (b : BitVec 3) : Reg :=
  match b.toNat with
  | 0 => .r0
  | 1 => .r1
  | 2 => .r2
  | 3 => .r3
  | 4 => .r4
  | 5 => .r5
  | 6 => .r6
  | _ => .r7

/-- The 3-bit field of a register (R10). -/
def Reg.toBits : Reg → BitVec 3
  | .r0 => 0
  | .r1 => 1
  | .r2 => 2
  | .r3 => 3
  | .r4 => 4
  | .r5 => 5
  | .r6 => 6
  | .r7 => 7

/-- The addressing mode a 3-bit field names (R73). -/
def Mode.ofBits (b : BitVec 3) : Mode :=
  match b.toNat with
  | 0 => .register
  | 1 => .postInc
  | 2 => .preDec
  | 3 => .indexed
  | 4 => .indirect
  | 5 => .postIncIndirect
  | 6 => .preDecIndirect
  | _ => .indexedIndirect

/-- The 3-bit field of an addressing mode (R73). -/
def Mode.toBits : Mode → BitVec 3
  | .register => 0
  | .postInc => 1
  | .preDec => 2
  | .indexed => 3
  | .indirect => 4
  | .postIncIndirect => 5
  | .preDecIndirect => 6
  | .indexedIndirect => 7

/-- The high nibble `b[7:4]`, which selects the instruction or the group (R50, R58). -/
def highNibble (b : Byte) : Nat := (b.extractLsb' 4 4).toNat

/-- The low nibble `b[3:0]`, the sub-opcode of the branches and of the one-operand group (R59, R60). -/
def lowNibble (b : Byte) : Nat := (b.extractLsb' 0 4).toNat

/-- `lreg = b1[2:0]` of SOB, JSR and RTS (R52). -/
def lregOf (b1 : Byte) : Reg := Reg.ofBits (b1.extractLsb' 0 3)

/-- The mask `b1[3:0]` of CCC and SCC, in the order N Z V C (R14, R93). -/
def maskOf (b1 : Byte) : FlagMask :=
  { n := b1.getLsbD 3, z := b1.getLsbD 2, v := b1.getLsbD 1, c := b1.getLsbD 0 }

/-- The specifier in `b2[5:0]`: the only one of FJ, FL and F1, the destination of F2 (R52). -/
def operandOf (b2 : Byte) : Operand :=
  { mode := Mode.ofBits (b2.extractLsb' 3 3), reg := Reg.ofBits (b2.extractLsb' 0 3) }

/-- The source specifier of F2: `smode = b1[3:1]`, `sreg = b1[0] ‖ b2[7:6]` (R52, D11). -/
def sourceOf (b1 b2 : Byte) : Operand :=
  { mode := Mode.ofBits (b1.extractLsb' 1 3)
    reg := Reg.ofBits (b1.extractLsb' 0 1 ++ b2.extractLsb' 6 2) }

/-! ## Decoding -/

/-- A second instruction byte follows `b1` (R50, R65). The five unassigned first bytes count as one byte: whether
their second byte is fetched is immaterial (R63, 90_conflicts.md C8). -/
def hasSecondByte (b1 : Byte) : Bool :=
  match highNibble b1 with
  | 3 => decide (lowNibble b1 < 15)
  | 8 => decide (lowNibble b1 < 12)
  | 4 | 5 | 6 | 9 | 10 | 11 | 12 | 13 | 14 => true
  | _ => false

/-- The branches by `cccc` (R59); 1111 is unassigned (R63). -/
def decodeBranch (cccc : Nat) (dd8 : Byte) : Instr :=
  match cccc with
  | 0 => .br dd8
  | 1 => .bne dd8
  | 2 => .beq dd8
  | 3 => .bpl dd8
  | 4 => .bmi dd8
  | 5 => .bvc dd8
  | 6 => .bvs dd8
  | 7 => .bcc dd8
  | 8 => .bcs dd8
  | 9 => .bge dd8
  | 10 => .blt dd8
  | 11 => .bgt dd8
  | 12 => .ble dd8
  | 13 => .bhi dd8
  | 14 => .bls dd8
  | _ => .reserved3F

/-- The one-operand instructions by `cccc` (R60); 1100 to 1111 are unassigned (R63). -/
def decodeOneOperand (cccc : Nat) (op : Operand) : Instr :=
  match cccc with
  | 0 => .clr op
  | 1 => .not op
  | 2 => .inc op
  | 3 => .dec op
  | 4 => .neg op
  | 5 => .tst op
  | 6 => .ror op
  | 7 => .rol op
  | 8 => .asr op
  | 9 => .asl op
  | 10 => .adc op
  | 11 => .sbc op
  | 12 => .reserved8C
  | 13 => .reserved8D
  | 14 => .reserved8E
  | _ => .reserved8F

/-- The instruction of the bytes `b1`, `b2` (R57, R58, R61). `b2` is looked at only when `hasSecondByte b1`. -/
def decodePair (b1 b2 : Byte) : Instr :=
  match highNibble b1 with
  | 0 => .nop
  | 1 => .ccc (maskOf b1)
  | 2 => .scc (maskOf b1)
  | 3 => decodeBranch (lowNibble b1) b2
  | 4 => .jmp (operandOf b2)
  | 5 => .sob (lregOf b1) b2
  | 6 => .jsr (lregOf b1) (operandOf b2)
  | 7 => .rts (lregOf b1)
  | 8 => decodeOneOperand (lowNibble b1) (operandOf b2)
  | 9 => .mov (sourceOf b1 b2) (operandOf b2)
  | 10 => .add (sourceOf b1 b2) (operandOf b2)
  | 11 => .sub (sourceOf b1 b2) (operandOf b2)
  | 12 => .cmp (sourceOf b1 b2) (operandOf b2)
  | 13 => .and (sourceOf b1 b2) (operandOf b2)
  | 14 => .or (sourceOf b1 b2) (operandOf b2)
  | _ => .hlt

/-- Why a list of bytes is no instruction. -/
inductive DecodeError where
  /-- The list is empty. Safe: no instruction is invented. -/
  | noByte
  /-- The list ends after a first byte that has a second one (R65). Safe: no instruction is invented. -/
  | missingSecondByte (b1 : Byte)
deriving DecidableEq, Repr

/-- The instruction at the head of a list of bytes, and the bytes after its one or two instruction bytes. -/
def decode : List Byte → Except DecodeError (Instr × List Byte)
  | [] => .error .noByte
  | b1 :: rest =>
    if hasSecondByte b1 then
      match rest with
      | [] => .error (.missingSecondByte b1)
      | b2 :: rest' => .ok (decodePair b1 b2, rest')
    else .ok (decodePair b1 0, rest)

/-! ## Encoding (R51, R52) -/

/-- A first byte from its two nibbles. -/
def nibbles (hi lo : BitVec 4) : Byte := hi ++ lo

/-- `xxmmmrrr` with `xx` = 00 (R51, R62). -/
def encodeOperand (o : Operand) : Byte := (0#2 ++ o.mode.toBits) ++ o.reg.toBits

/-- `0xrrr`: the low nibble that holds `lreg`, its don't-care bit 0 (R51, R62). -/
def lregNibble (r : Reg) : BitVec 4 := 0#1 ++ r.toBits

/-- The low nibble `nzvk` of CCC and SCC (R51). -/
def maskNibble (m : FlagMask) : BitVec 4 :=
  ((BitVec.ofBool m.n ++ BitVec.ofBool m.z) ++ BitVec.ofBool m.v) ++ BitVec.ofBool m.c

/-- `1ccc mmmr`, `rrmmmrrr` (R51, R52), `hi` being `1ccc`. -/
def encodeTwo (hi : BitVec 4) (src dst : Operand) : List Byte :=
  [nibbles hi (src.mode.toBits ++ src.reg.toBits.extractLsb' 2 1),
   (src.reg.toBits.extractLsb' 0 2 ++ dst.mode.toBits) ++ dst.reg.toBits]

/-- The instruction bytes of an instruction (R51, R58 to R61), the first at the lowest address (R27). The extension
words of its operands are not part of them. -/
def encode : Instr → List Byte
  | .nop => [nibbles 0x0 0]
  | .ccc m => [nibbles 0x1 (maskNibble m)]
  | .scc m => [nibbles 0x2 (maskNibble m)]
  | .br d => [nibbles 0x3 0x0, d]
  | .bne d => [nibbles 0x3 0x1, d]
  | .beq d => [nibbles 0x3 0x2, d]
  | .bpl d => [nibbles 0x3 0x3, d]
  | .bmi d => [nibbles 0x3 0x4, d]
  | .bvc d => [nibbles 0x3 0x5, d]
  | .bvs d => [nibbles 0x3 0x6, d]
  | .bcc d => [nibbles 0x3 0x7, d]
  | .bcs d => [nibbles 0x3 0x8, d]
  | .bge d => [nibbles 0x3 0x9, d]
  | .blt d => [nibbles 0x3 0xA, d]
  | .bgt d => [nibbles 0x3 0xB, d]
  | .ble d => [nibbles 0x3 0xC, d]
  | .bhi d => [nibbles 0x3 0xD, d]
  | .bls d => [nibbles 0x3 0xE, d]
  | .reserved3F => [nibbles 0x3 0xF]
  | .jmp t => [nibbles 0x4 0, encodeOperand t]
  | .sob r d => [nibbles 0x5 (lregNibble r), d]
  | .jsr r t => [nibbles 0x6 (lregNibble r), encodeOperand t]
  | .rts r => [nibbles 0x7 (lregNibble r)]
  | .clr o => [nibbles 0x8 0x0, encodeOperand o]
  | .not o => [nibbles 0x8 0x1, encodeOperand o]
  | .inc o => [nibbles 0x8 0x2, encodeOperand o]
  | .dec o => [nibbles 0x8 0x3, encodeOperand o]
  | .neg o => [nibbles 0x8 0x4, encodeOperand o]
  | .tst o => [nibbles 0x8 0x5, encodeOperand o]
  | .ror o => [nibbles 0x8 0x6, encodeOperand o]
  | .rol o => [nibbles 0x8 0x7, encodeOperand o]
  | .asr o => [nibbles 0x8 0x8, encodeOperand o]
  | .asl o => [nibbles 0x8 0x9, encodeOperand o]
  | .adc o => [nibbles 0x8 0xA, encodeOperand o]
  | .sbc o => [nibbles 0x8 0xB, encodeOperand o]
  | .reserved8C => [nibbles 0x8 0xC]
  | .reserved8D => [nibbles 0x8 0xD]
  | .reserved8E => [nibbles 0x8 0xE]
  | .reserved8F => [nibbles 0x8 0xF]
  | .mov s d => encodeTwo 0x9 s d
  | .add s d => encodeTwo 0xA s d
  | .sub s d => encodeTwo 0xB s d
  | .cmp s d => encodeTwo 0xC s d
  | .and s d => encodeTwo 0xD s d
  | .or s d => encodeTwo 0xE s d
  | .hlt => [nibbles 0xF 0]

/-! ## Lengths (R50, R65) -/

/-- A `dd16` of the indexed modes follows the instruction bytes (R50). -/
def Operand.hasExtension (o : Operand) : Bool :=
  match o.mode with
  | .indexed | .indexedIndirect => true
  | .register | .postInc | .preDec | .indirect | .postIncIndirect | .preDecIndirect => false

/-- The words of the instruction stream a specifier steps over: the `dd16` of the indexed modes, and the word the
immediate and absolute forms consume through the mode's own increment of R7 (R50, R65, R82). -/
def Operand.streamWords (o : Operand) : Nat :=
  match o.mode, o.reg with
  | .indexed, _ => 1
  | .indexedIndirect, _ => 1
  | .postInc, .r7 => 1
  | .postIncIndirect, .r7 => 1
  | _, _ => 0

/-- The operand specifiers of an instruction, in the order of the instruction stream (R52, R53). -/
def Instr.operands : Instr → List Operand
  | .jmp t => [t]
  | .jsr _ t => [t]
  | .clr o | .not o | .inc o | .dec o | .neg o | .tst o => [o]
  | .ror o | .rol o | .asr o | .asl o | .adc o | .sbc o => [o]
  | .mov s d | .add s d | .sub s d | .cmp s d | .and s d | .or s d => [s, d]
  | .nop | .ccc _ | .scc _ | .hlt | .sob _ _ | .rts _ => []
  | .br _ | .bne _ | .beq _ | .bpl _ | .bmi _ | .bvc _ | .bvs _ | .bcc _ | .bcs _ => []
  | .bge _ | .blt _ | .bgt _ | .ble _ | .bhi _ | .bls _ => []
  | .reserved3F | .reserved8C | .reserved8D | .reserved8E | .reserved8F => []

/-- The total length in bytes of an instruction with the words its operands step over (R50, R65). -/
def Instr.length (i : Instr) : Nat :=
  (encode i).length + 2 * ((i.operands.map Operand.streamWords).foldl (· + ·) 0)

/-! ## The opcode table's numbers

spec/opcode_table.json numbers a two-byte row as the one 16-bit word `b1 ‖ b2` (R52), bit 0 the least significant
bit of `b2`, and a one-byte row as the byte `b1` (assumption log 10). -/

/-- Byte `k` of a number, byte 0 the least significant. -/
def byteOfNat (w k : Nat) : Byte := BitVec.ofNat 8 (w / 256 ^ k)

/-- The six bytes (the longest instruction, R50) of an instruction whose `nbits` table bits are `w` and whose bits
above are 0, laid out as memory holds them: one byte, or 16-bit words high byte first (R27). -/
def tableBytes (nbits w : Nat) : List Byte :=
  let v := w % 2 ^ nbits
  if nbits ≤ 8 then [byteOfNat v 0, 0, 0, 0, 0, 0]
  else [byteOfNat v 1, byteOfNat v 0, byteOfNat v 3, byteOfNat v 2, byteOfNat v 5, byteOfNat v 4]

/-- The instruction the decoder reads from an instruction whose bits are `w`, numbered as spec/opcode_table.json
numbers them. -/
def decodeTableWord (nbits w : Nat) : Option Instr :=
  match decode (tableBytes nbits w) with
  | .ok (i, _) => some i
  | .error _ => none

end Sys2Proof
end

