-- ==== Sys2Proof/Config.lean ====
section
/-! DEFINITION. The named parameters of the spec (00_scope.md section 5, 92_eei_decisions.md "Parameters left
OPEN"). A `Config` is plain data; the machine's state carries one and no step changes it, so a statement about
every state is a statement about every value of every parameter (assumption log 1). `RESET_STATE`, the fifth
parameter, is the state itself.

The model has one free value: the order in which the agents move, which the spec neither orders nor bounds
(60_exceptions.md R161; assumption log 2). The spec gives every result of every instruction. -/

namespace Sys2Proof

/-- `SBC_C_MODE` (45_one_operand.md R142, D18): what SBC loads into C. -/
inductive SbcCMode where
  /-- C is the adder's carry-out, the complement of the borrow (the spec's default). -/
  | carryOut
  /-- C is the borrow, as for SUB. -/
  | borrow
deriving DecidableEq, Repr

/-- `TIMER_MAY_FIRE` (60_exceptions.md R157, D29), the two predicates the spec names. Any other predicate of the
state only removes runs of `always`: it is a premise on the schedule (assumption log 3). -/
inductive TimerMayFire where
  /-- The timer may fire at every boundary (the spec's default). -/
  | always
  /-- The timer may fire only while TIMDT is not 00h. -/
  | timdtNonzero
deriving DecidableEq, Repr

/-- `KEY_SET` (60_exceptions.md R158, D29): the codes the keyboard may deliver. -/
inductive KeySet where
  /-- Every byte 00h..FFh (the spec's default). -/
  | all
  /-- The listed codes only. -/
  | only (keys : List Byte)
deriving DecidableEq, Repr

/-- Whether a code belongs to `KEY_SET`. -/
def KeySet.holds : KeySet → Byte → Bool
  | .all, _ => true
  | .only keys, k => keys.contains k

/-- Whose move a step is (20_memory.md R42, 60_exceptions.md R161). -/
inductive AgentMove where
  /-- The processor takes a step. -/
  | processor
  /-- The timer fires (R157). -/
  | timer
  /-- The keyboard delivers the key with this code (R158). -/
  | key (code : Byte)
deriving DecidableEq, Repr, Inhabited

/-- The parameters fixed for one machine. -/
structure Config where
  /-- `HAS_INTERRUPTS` (00_scope.md R2, D1): true is the CESAR16i, false the CESAR16. -/
  hasInterrupts : Bool
  /-- `SBC_C_MODE`. -/
  sbcCMode : SbcCMode
  /-- `TIMER_MAY_FIRE`. -/
  timerMayFire : TimerMayFire
  /-- `KEY_SET`. -/
  keySet : KeySet
deriving DecidableEq, Repr

/-- The defaults of 00_scope.md section 5. -/
def Config.standard : Config :=
  { hasInterrupts := true, sbcCMode := .carryOut, timerMayFire := .always, keySet := .all }

/-- The free value of the model: an endless sequence of moves of which nothing is known, so that what is proved of a
run that follows it holds for every interleaving without end (R161; assumption log 2). -/
opaque Config.freeMove : Nat → AgentMove

end Sys2Proof
end

