-- ==== Sys2Proof/Machine/State.lean ====
section
/-! DEFINITION. The machine's state as plain data (10_state.md), the reasons a step can stop, and the state after
reset. Every control, status and device register is a byte of memory (R17) and has no other home. -/

namespace Sys2Proof.Machine

/-- The eight general registers, 16 bits each (R10); `r6` is SP (R11) and `r7` is PC (R12). -/
structure Regs where
  r0 : Word
  r1 : Word
  r2 : Word
  r3 : Word
  r4 : Word
  r5 : Word
  r6 : Word
  r7 : Word
deriving DecidableEq, Repr

/-- The four condition codes (R14). -/
structure Flags where
  n : Bool
  z : Bool
  v : Bool
  c : Bool
deriving DecidableEq, Repr

/-- The 65536 bytes of memory (R23, R24): the cells that differ from the reset contents (`initialByte`, Ops.lean),
addresses strictly rising (`Memory.wf`, Ops.lean). -/
structure Memory where
  cells : List Host.Cell
deriving DecidableEq, Repr

/-- Whose moves the next steps are (R42, R161): moves in a given order, then the processor alone for ever or an
endless free sequence. Every interleaving, with or without end, is of this form (assumption log 2). -/
inductive Schedule where
  /-- No agent but the processor moves (R161, case 1). -/
  | processorOnly
  /-- The moves of `Config.freeMove` from position `n` on. -/
  | free (n : Nat)
  /-- One move, then the rest. -/
  | move (m : AgentMove) (rest : Schedule)
deriving DecidableEq, Repr

/-- The machine's state. -/
structure State where
  /-- R0 to R7 (R10). -/
  regs : Regs
  /-- N, Z, V, C (R14). -/
  flags : Flags
  /-- The memory, with IVET, TIMDT, INTS, INTE, TECST, TECDT and the display in it (R17, R23). -/
  mem : Memory
  /-- Set by HLT and never cleared (10_state.md section 7, R91). -/
  halted : Bool
  /-- The model's own field: the parameters of the machine; no step changes it (assumption log 1). -/
  config : Config
  /-- The model's own field: whose move each step is; a step spends one (assumption log 2). -/
  schedule : Schedule
deriving DecidableEq, Repr

/-- The faults of the machine. There is none: it raises no synchronous exception (60_exceptions.md R145) and no
memory access faults (40_addressing_modes.md R86). Safe: a closed type with nothing in it hides no behaviour, since
every stop the spec names is a refusal (assumption log 19). -/
inductive Fault where
deriving DecidableEq, Repr

/-- Why the model gives a step no meaning (00_scope.md R8). -/
inductive Refusal where
  /-- Raised by an arm of `exec` whose instruction has no meaning yet. Safe. No arm of this model raises it. -/
  | notModelled (mnemonic : String)
  /-- Raised by the five unassigned first bytes 3Fh, 8Ch, 8Dh, 8Eh, 8Fh (R63). Safe: the spec gives no effect. -/
  | reservedOpcode (b1 : Byte)
  /-- Raised by JMP and JSR on a register, which has no address (R117, R119). Safe: the spec gives no effect. -/
  | noAddress (mnemonic : String)
  /-- Raised by the fetch of an instruction byte at or above FFC0h (R55) or of an extension word at or above FFBFh
  (R56). Safe: the spec gives no effect. -/
  | fetchFromByteArea (addr : Word)
deriving DecidableEq, Repr

/-- The launch state 70_reset_and_hazards.md R166 suggests, with nothing loaded. No source states a reset value
(R165): each value is logged (assumption log 6, 7). -/
def State.reset : State :=
  { regs := { r0 := 0, r1 := 0, r2 := 0, r3 := 0, r4 := 0, r5 := 0, r6 := 0, r7 := 0 }
    flags := { n := false, z := false, v := false, c := false }
    mem := { cells := [] }
    halted := false
    config := Config.standard
    schedule := .processorOnly }

end Sys2Proof.Machine
end

