-- ==== Sys2Proof/Machine/Ops.lean ====
section
/-! DEFINITION. The named operations over memory, registers, the stack and the instruction stream (00_scope.md R7),
the taking of an interrupt as one shared operation (60_exceptions.md R152) and the return beside it (R153). -/

namespace Sys2Proof.Machine

/-! ## Memory (R24) -/

/-- What an address that memory does not list reads as: the reset contents R166 suggests, a space in each display
byte and 00h everywhere else (assumption log 7). -/
def initialByte (a : Nat) : Byte := if 0xFFDC ≤ a then 0x20 else 0x00

/-- The byte at an address: the first cell listed for it, or the reset contents. -/
def lookup : List Host.Cell → Nat → Byte
  | [], a => initialByte a
  | cell :: rest, a => if cell.1 = a then cell.2 else lookup rest a

/-- A cell put before the first cell of a higher address. -/
def insertCell : List Host.Cell → Host.Cell → List Host.Cell
  | [], new => [new]
  | cell :: rest, new =>
    if new.1 < cell.1 then new :: cell :: rest else cell :: insertCell rest new

/-- The canonical form: addresses below 65536 and strictly rising, no cell equal to its address's reset byte. -/
abbrev Memory.wf (m : Memory) : Prop :=
  m.cells.Pairwise (fun x y => x.1 < y.1) ∧
    ∀ cell ∈ m.cells, cell.1 < 65536 ∧ cell.2 ≠ initialByte cell.1

/-- `M[a]` (R24). -/
def Memory.read (m : Memory) (a : Word) : Byte := lookup m.cells a.toNat

/-- `M[a] <- b` (R24): the cells of `a` go, and one for `b` comes unless `b` is the reset byte. -/
def Memory.write (m : Memory) (a : Word) (b : Byte) : Memory :=
  let others := m.cells.filter (fun cell => cell.1 != a.toNat)
  { cells := if b = initialByte a.toNat then others else insertCell others (a.toNat, b) }

/-! ## Registers and flags (R10 to R14) -/

/-- The register `r` of a register file. -/
def Regs.get (g : Regs) : Reg → Word
  | .r0 => g.r0
  | .r1 => g.r1
  | .r2 => g.r2
  | .r3 => g.r3
  | .r4 => g.r4
  | .r5 => g.r5
  | .r6 => g.r6
  | .r7 => g.r7

/-- A register file with the register `r` replaced. -/
def Regs.set (g : Regs) (r : Reg) (w : Word) : Regs :=
  match r with
  | .r0 => { g with r0 := w }
  | .r1 => { g with r1 := w }
  | .r2 => { g with r2 := w }
  | .r3 => { g with r3 := w }
  | .r4 => { g with r4 := w }
  | .r5 => { g with r5 := w }
  | .r6 => { g with r6 := w }
  | .r7 => { g with r7 := w }

/-- `x[r]` (R10). No register is hardwired. -/
def State.reg (s : State) (r : Reg) : Word := s.regs.get r

/-- `x[r] <- w` (R10). -/
def State.setReg (s : State) (r : Reg) (w : Word) : State := { s with regs := s.regs.set r w }

/-- `pc`, another name for `x[7]` (R12). -/
def State.pc (s : State) : Word := s.reg .r7

/-- `pc <- target` (R12). -/
def State.setPc (s : State) (target : Word) : State := s.setReg .r7 target

/-- `sp`, another name for `x[6]` (R11). -/
def State.sp (s : State) : Word := s.reg .r6

/-- The condition codes replaced (R14). -/
def State.setFlags (s : State) (f : Flags) : State := { s with flags := f }

/-- `halted <- true` (R91). -/
def State.halt (s : State) : State := { s with halted := true }

/-! ## Memory accesses (R25, R26, R29 to R33) -/

/-- `M[a]` as `MemRead(a, 1)` (R25). -/
def State.byte (s : State) (a : Word) : Byte := s.mem.read a

/-- `MemWrite(a, 1, b)` (R26). -/
def State.setByte (s : State) (a : Word) (b : Byte) : State := { s with mem := s.mem.write a b }

/-- `v[15:8]`. -/
def highByte (v : Word) : Byte := v.extractLsb' 8 8

/-- `v[7:0]`. -/
def lowByte (v : Word) : Byte := v.extractLsb' 0 8

/-- `MemRead(a, 2) = M[a] ‖ M[a+1]`, the byte at the lower address the high half (R25, R27). -/
def State.memWord (s : State) (a : Word) : Word := s.byte a ++ s.byte (a + 1)

/-- `MemWrite(a, 2, v)`: `M[a] <- v[15:8]`, then `M[a+1] <- v[7:0]` (R26). -/
def State.setMemWord (s : State) (a v : Word) : State :=
  (s.setByte a (highByte v)).setByte (a + 1) (lowByte v)

/-- The 8-bit access area, FFC0h to FFFFh (R29, R35). -/
def inByteArea (a : Word) : Bool := decide (0xFFC0 ≤ a.toNat)

/-- `OpRead(a)` (R29): one byte zero-extended in the 8-bit area, else a word. At FFBFh it is the formula of R32
(assumption log 12). -/
def State.opRead (s : State) (a : Word) : Word :=
  if inByteArea a then (s.byte a).setWidth 16 else s.memWord a

/-- `OpWrite(a, v)` (R30): the low byte of `v` alone in the 8-bit area, else a word. -/
def State.opWrite (s : State) (a v : Word) : State :=
  if inByteArea a then s.setByte a (lowByte v) else s.setMemWord a v

/-- The addresses whose bytes `OpWrite(a, v)` stores (R30). -/
def storedAddresses (a : Word) : List Word := if inByteArea a then [a] else [a, a + 1]

/-! ## The stack (R101) -/

/-- `Push(v)`: R6 down by 2, then `v` stored at R6 (R101). -/
def State.push (s : State) (v : Word) : State :=
  let s1 := s.setReg .r6 (s.reg .r6 - 2)
  s1.opWrite (s1.reg .r6) v

/-- `Pop()`: the operand at R6, and R6 up by 2 (R101). -/
def State.pop (s : State) : Word × State :=
  (s.opRead (s.reg .r6), s.setReg .r6 (s.reg .r6 + 2))

/-! ## Fetch (R55, R56) -/

/-- `FetchByte()` (R55). -/
def State.fetchByte (s : State) : Except Refusal (Byte × State) :=
  if 0xFFC0 ≤ s.pc.toNat then .error (.fetchFromByteArea s.pc)
  else .ok (s.byte s.pc, s.setPc (s.pc + 1))

/-- `FetchWord()` (R56). -/
def State.fetchWord (s : State) : Except Refusal (Word × State) :=
  if 0xFFBF ≤ s.pc.toNat then .error (.fetchFromByteArea s.pc)
  else .ok (s.memWord s.pc, s.setPc (s.pc + 2))

/-- The instruction bytes at R7, R7 advanced past them (R57): one byte, and a second one where the first has one. -/
def State.fetchInstr (s : State) : Except Refusal (Instr × State) :=
  match s.fetchByte with
  | .error e => .error e
  | .ok (b1, s1) =>
    if hasSecondByte b1 then
      match s1.fetchByte with
      | .error e => .error e
      | .ok (b2, s2) => .ok (decodePair b1 b2, s2)
    else .ok (decodePair b1 0, s1)

/-- Bytes stored one after the other from an address upward. -/
def State.storeBytes (s : State) (a : Word) : List Byte → State
  | [] => s
  | b :: rest => (s.setByte a b).storeBytes (a + 1) rest

/-! ## Control bytes (R17 to R22) -/

/-- IVET at FFBEh:FFBFh, the address of the service routine (R18). -/
def State.ivet (s : State) : Word := s.memWord 0xFFBE

/-- TIMDT at FFD7h (R19). -/
def State.timdt (s : State) : Byte := s.byte 0xFFD7

/-- INTS at FFD8h (R20, R147). -/
def State.ints (s : State) : Byte := s.byte 0xFFD8

/-- INTE at FFD9h (R21, R148). -/
def State.inte (s : State) : Byte := s.byte 0xFFD9

/-- TECST at FFDAh (R22). -/
def State.tecst (s : State) : Byte := s.byte 0xFFDA

/-- TECDT at FFDBh (R22). -/
def State.tecdt (s : State) : Byte := s.byte 0xFFDB

/-! ## Interrupts (R149 to R153) -/

/-- `IRQ()` (R149): IE set, IP clear, and an enabled source pending. -/
def State.irq (s : State) : Bool :=
  s.inte.getLsbD 7 && !s.ints.getLsbD 7 &&
    ((s.inte.getLsbD 1 && s.ints.getLsbD 1) || (s.inte.getLsbD 0 && s.ints.getLsbD 0))

/-- `InterruptEntry()` (R152), the one exception entry of the machine: R7 pushed, IP set, R7 loaded from IVET.
Nothing else is saved or changed; the flags and INTE stay. -/
def State.interruptEntry (s : State) : State :=
  let s1 := s.push s.pc
  let s2 := s1.setByte 0xFFD8 (s1.ints ||| 0x80)
  s2.setPc s2.ivet

/-- The operation of RTS (R120), by which a service routine returns when `lreg` is R7 (R153): `pc <- x[lreg]`, then
the popped word goes to `lreg`. INTS and INTE are not touched. -/
def State.returnVia (s : State) (lreg : Reg) : State :=
  let s1 := s.setPc (s.reg lreg)
  let (v, s2) := s1.pop
  s2.setReg lreg v

/-! ## Address map (R35) -/

/-- What a range of the address map is used for (R35). -/
inductive RegionUse where
  | programAndStack
  | reservedWords
  | ivet
  | reservedBytes
  | timdt
  | ints
  | inte
  | tecst
  | tecdt
  | display
deriving DecidableEq, Repr

/-- A range of the address map, both ends included. -/
structure Region where
  first : Nat
  last : Nat
  /-- Operand accesses there are 8 bits wide. -/
  byteAccess : Bool
  use : RegionUse
deriving DecidableEq, Repr

/-- The address map (R35, 90_conflicts.md C3, C4). Every range is readable and writable memory (R24, R36). -/
def addressMap : List Region :=
  [{ first := 0x0000, last := 0xFF7F, byteAccess := false, use := .programAndStack },
   { first := 0xFF80, last := 0xFFBD, byteAccess := false, use := .reservedWords },
   { first := 0xFFBE, last := 0xFFBF, byteAccess := false, use := .ivet },
   { first := 0xFFC0, last := 0xFFD6, byteAccess := true, use := .reservedBytes },
   { first := 0xFFD7, last := 0xFFD7, byteAccess := true, use := .timdt },
   { first := 0xFFD8, last := 0xFFD8, byteAccess := true, use := .ints },
   { first := 0xFFD9, last := 0xFFD9, byteAccess := true, use := .inte },
   { first := 0xFFDA, last := 0xFFDA, byteAccess := true, use := .tecst },
   { first := 0xFFDB, last := 0xFFDB, byteAccess := true, use := .tecdt },
   { first := 0xFFDC, last := 0xFFFF, byteAccess := true, use := .display }]

/-- An address lies in a range. -/
def Region.holds (g : Region) (a : Word) : Bool :=
  decide (g.first ≤ a.toNat) && decide (a.toNat ≤ g.last)

end Sys2Proof.Machine
end

