-- ==== Sys2Proof/Machine/Devices.lean ====
section
/-! DEFINITION. The agents' order, the device agents and the display (60_exceptions.md R157 to R161). -/

namespace Sys2Proof.Machine

/-! ## Whose move it is (R42, R161) -/

/-- The first move of a schedule. -/
def Schedule.head : Schedule → AgentMove
  | .processorOnly => .processor
  | .free n => Config.freeMove n
  | .move m _ => m

/-- A schedule with its first move spent. -/
def Schedule.tail : Schedule → Schedule
  | .processorOnly => .processorOnly
  | .free n => .free (n + 1)
  | .move _ rest => rest

/-- The state in which the next move is made: that move spent. -/
def State.afterSchedule (s : State) : State := { s with schedule := s.schedule.tail }

/-! ## The devices -/

/-- `INTS <- INTS OR bits`. On a machine without interrupts FFD8h is plain memory, which no device writes
(00_scope.md R2, R146; assumption log 4). -/
def State.raisePending (s : State) (bits : Byte) : State :=
  if s.config.hasInterrupts then s.setByte 0xFFD8 (s.ints ||| bits) else s

/-- `TIMER_MAY_FIRE` of the state (R157). -/
def State.timerMayFire (s : State) : Bool :=
  match s.config.timerMayFire with
  | .always => true
  | .timdtNonzero => s.timdt != 0

/-- `TimerFires()` (R157): IPStim set. TIMDT is never written. -/
def State.timerFires (s : State) : State := s.raisePending 0x01

/-- `KeyArrives(k)` (R158): the code in TECDT, 80h in TECST, IPStec set. A key not yet read is replaced. -/
def State.keyArrives (s : State) (k : Byte) : State :=
  ((s.setByte 0xFFDB k).setByte 0xFFDA 0x80).raisePending 0x02

/-- The timer's turn: it fires if it may (assumption log 3). -/
def State.timerTurn (s : State) : State := if s.timerMayFire then s.timerFires else s

/-- The keyboard's turn: the key arrives if `KEY_SET` has it (assumption log 3). -/
def State.keyTurn (s : State) (k : Byte) : State := if s.config.keySet.holds k then s.keyArrives k else s

/-! ## The display and the ASCII table (R159, R160) -/

/-- The 36 display addresses FFDCh..FFFFh, in order (R159). -/
def displayAddresses : List Word := (List.range 36).map (fun k => BitVec.ofNat 16 (0xFFDC + k))

/-- What the display holds: 36 bytes, position 0 first. This is the program's visible output (R159). -/
def State.display (s : State) : List Byte := displayAddresses.map s.byte

/-- A cell of the card's ASCII table (R160). -/
inductive Glyph where
  /-- A control code, by the card's name for it. -/
  | control (name : String)
  /-- A character. -/
  | char (c : Char)
deriving DecidableEq, Repr

/-- The names of the codes 00h to 1Fh (R160). -/
def controlNames : List String :=
  ["null", "soh", "stx", "etx", "eot", "enq", "ack", "bell", "bsp", "ht", "lf", "vt", "ff", "cr", "so", "si",
   "dle", "dc1", "dc2", "dc3", "dc4", "nak", "syn", "etb", "can", "em", "sub", "esc", "fs", "gs", "rs", "us"]

/-- The cell of a code (R160): the card's codes have 7 bits, its columns write the eighth as a don't-care. Data for
the reader of the display; nothing in the processor depends on it. -/
def glyphOf (b : Byte) : Glyph :=
  let k := b.toNat % 128
  match controlNames[k]? with
  | some name => .control name
  | none => if k = 127 then .control "del" else .char (Char.ofNat k)

end Sys2Proof.Machine
end

