-- ==== Sys2Proof/Machine/Flags.lean ====
section
/-! DEFINITION. Arithmetic and the condition codes (44_two_operand.md R129, 45_one_operand.md, 30_encoding.md R59).
Flags come from the 16-bit result, in the 8-bit area too (20_memory.md R30, D38). -/

namespace Sys2Proof.Machine

/-! ## `Add`, `Sub` and `SetNZ` (R129) -/

/-- The result of an adder or subtracter: the value, its carry-out or borrow-out, and signed overflow. -/
structure Sum where
  res : Word
  /-- The carry-out of an addition, the borrow-out of a subtraction. -/
  out : Bool
  ovf : Bool
deriving DecidableEq, Repr

/-- `Add(a, b, cin)` (R129): the 17-bit sum cut to 16 bits, its bit 16, and signed overflow. -/
def addWithCarry (a b : Word) (cin : Bool) : Sum :=
  let t := a.toNat + b.toNat + cin.toNat
  let res := BitVec.ofNat 16 t
  { res := res, out := decide (65536 ≤ t), ovf := (a.msb == b.msb) && (res.msb != a.msb) }

/-- `Sub(a, b)`, `a - b` (R129): the borrow-out is 1 when `a` is below `b` unsigned. -/
def subtract (a b : Word) : Sum :=
  let res := a - b
  { res := res, out := decide (a.toNat < b.toNat), ovf := (a.msb != b.msb) && (res.msb != a.msb) }

/-- `SetNZ(res)` with V and C given (R129). -/
def flagsOf (res : Word) (v c : Bool) : Flags := { n := res.msb, z := res == 0, v := v, c := c }

/-- The flags of an addition or subtraction whose C is the carry or borrow out. -/
def Sum.withFlags (t : Sum) : Word × Flags := (t.res, flagsOf t.res t.ovf t.out)

/-! ## Two operands (R123 to R128): destination, source, old flags -/

/-- MOV's flags: N and Z from the value moved, V cleared, C unchanged (R123). -/
def movFlags (src : Word) (f : Flags) : Flags := flagsOf src false f.c

/-- `dst + src` (R124). -/
def addOp (dst src : Word) (_ : Flags) : Word × Flags := (addWithCarry dst src false).withFlags

/-- `dst - src` (R125). -/
def subOp (dst src : Word) (_ : Flags) : Word × Flags := (subtract dst src).withFlags

/-- The flags of `src - dst`, the reverse of SUB (R126). -/
def cmpFlags (src dst : Word) : Flags := (subtract src dst).withFlags.2

/-- `dst AND src`, V cleared, C unchanged (R127). -/
def andOp (dst src : Word) (f : Flags) : Word × Flags := (dst &&& src, flagsOf (dst &&& src) false f.c)

/-- `dst OR src`, V cleared, C unchanged (R128). -/
def orOp (dst src : Word) (f : Flags) : Word × Flags := (dst ||| src, flagsOf (dst ||| src) false f.c)

/-! ## One operand (R131 to R142): operand, old flags -/

/-- `0`, flags 0100 (R131). -/
def clrOp (_ : Word) (_ : Flags) : Word × Flags := (0, { n := false, z := true, v := false, c := false })

/-- `NOT op`, V cleared, C set (R132). -/
def notOp (op : Word) (_ : Flags) : Word × Flags := (~~~op, flagsOf (~~~op) false true)

/-- `op + 1` (R133). -/
def incOp (op : Word) (_ : Flags) : Word × Flags := (addWithCarry op 1 false).withFlags

/-- `op - 1` (R134). -/
def decOp (op : Word) (_ : Flags) : Word × Flags := (subtract op 1).withFlags

/-- `0 - op` (R135). -/
def negOp (op : Word) (_ : Flags) : Word × Flags := (subtract 0 op).withFlags

/-- `op`, V and C cleared (R136). -/
def tstOp (op : Word) (_ : Flags) : Word × Flags := (op, flagsOf op false false)

/-- A shifted value with the bit shifted out: C is that bit and V is the new N XOR the new C (R137 to R140). -/
def shiftResult (res : Word) (out : Bool) : Word × Flags := (res, flagsOf res (res.msb != out) out)

/-- `C ‖ op[15:1]` (R137). -/
def rorOp (op : Word) (f : Flags) : Word × Flags :=
  shiftResult (BitVec.ofBool f.c ++ op.extractLsb' 1 15) (op.getLsbD 0)

/-- `op[14:0] ‖ C` (R138). -/
def rolOp (op : Word) (f : Flags) : Word × Flags :=
  shiftResult (op.extractLsb' 0 15 ++ BitVec.ofBool f.c) (op.getLsbD 15)

/-- `op[15] ‖ op[15:1]` (R139, D19). -/
def asrOp (op : Word) (_ : Flags) : Word × Flags :=
  shiftResult (op.extractLsb' 15 1 ++ op.extractLsb' 1 15) (op.getLsbD 0)

/-- `op[14:0] ‖ 0` (R140, D19). -/
def aslOp (op : Word) (_ : Flags) : Word × Flags :=
  shiftResult (op.extractLsb' 0 15 ++ 0#1) (op.getLsbD 15)

/-- `op + C` (R141). -/
def adcOp (op : Word) (f : Flags) : Word × Flags := (addWithCarry op 0 f.c).withFlags

/-- What SBC loads into C, by `SBC_C_MODE` (R142, D18; assumption log 16). -/
def sbcCarry (mode : SbcCMode) (borrow : Bool) : Bool :=
  match mode with
  | .carryOut => !borrow
  | .borrow => borrow

/-- `op - C` (R142), the old C zero-extended to 16 bits. -/
def sbcOp (mode : SbcCMode) (op : Word) (f : Flags) : Word × Flags :=
  let t := subtract op ((BitVec.ofBool f.c).setWidth 16)
  (t.res, flagsOf t.res t.ovf (sbcCarry mode t.out))

/-! ## CCC and SCC (R93, R94) -/

/-- The flags the mask selects cleared, the others unchanged (R93). -/
def clearFlags (m : FlagMask) (f : Flags) : Flags :=
  { n := f.n && !m.n, z := f.z && !m.z, v := f.v && !m.v, c := f.c && !m.c }

/-- The flags the mask selects set, the others unchanged (R94). -/
def raiseFlags (m : FlagMask) (f : Flags) : Flags :=
  { n := f.n || m.n, z := f.z || m.z, v := f.v || m.v, c := f.c || m.c }

/-! ## Branch conditions (R59) -/

/-- NotEqual: Z = 0 (R103). -/
def condNE (f : Flags) : Bool := !f.z

/-- Equal: Z = 1 (R104). -/
def condEQ (f : Flags) : Bool := f.z

/-- Plus: N = 0 (R105). -/
def condPL (f : Flags) : Bool := !f.n

/-- Minus: N = 1 (R106). -/
def condMI (f : Flags) : Bool := f.n

/-- Overflow Clear: V = 0 (R107). -/
def condVC (f : Flags) : Bool := !f.v

/-- Overflow Set: V = 1 (R108). -/
def condVS (f : Flags) : Bool := f.v

/-- Carry Clear: C = 0 (R109). -/
def condCC (f : Flags) : Bool := !f.c

/-- Carry Set: C = 1 (R110). -/
def condCS (f : Flags) : Bool := f.c

/-- Greater or Equal: N = V (R111). -/
def condGE (f : Flags) : Bool := f.n == f.v

/-- Less Than: N ≠ V (R112). -/
def condLT (f : Flags) : Bool := f.n != f.v

/-- Greater Than: N = V and Z = 0 (R113). -/
def condGT (f : Flags) : Bool := (f.n == f.v) && !f.z

/-- Less or Equal: N ≠ V or Z = 1 (R114). -/
def condLE (f : Flags) : Bool := (f.n != f.v) || f.z

/-- Higher: C = 0 and Z = 0 (R115). -/
def condHI (f : Flags) : Bool := !f.c && !f.z

/-- Lower or Same: C = 1 or Z = 1 (R116). -/
def condLS (f : Flags) : Bool := f.c || f.z

end Sys2Proof.Machine
end

