-- ==== Sys2Proof/Machine/ConditionCodes.lean ====
section
/-! DEFINITION. CCC and SCC (42_condition_codes.md). -/

namespace Sys2Proof.Machine

/-- CCC: the flags of the mask cleared (R93). -/
def execCcc (mask : FlagMask) (s : State) : Host.Outcome State Fault Refusal :=
  .next (s.setFlags (clearFlags mask s.flags))

/-- SCC: the flags of the mask set (R94). -/
def execScc (mask : FlagMask) (s : State) : Host.Outcome State Fault Refusal :=
  .next (s.setFlags (raiseFlags mask s.flags))

end Sys2Proof.Machine
end

