-- ==== Sys2Proof/Machine/Operands.lean ====
section
/-! DEFINITION. Operand specifiers (40_addressing_modes.md): resolving one to a location with the mode's side
effects, and reading and writing a location. -/

namespace Sys2Proof.Machine

/-- A resolved operand (R73): a register, or the operand at an address. -/
inductive Loc where
  | reg (r : Reg)
  | mem (a : Word)
deriving DecidableEq, Repr

/-- `Resolve(mmm, i)` (R73 to R81): the location, and the state after the mode's side effects on the register and on
R7. With R7 as the register this gives the four derived modes (R82). The only refusal is that of `FetchWord` (R86). -/
def resolve (o : Operand) (s : State) : Except Refusal (Loc × State) :=
  match o.mode with
  | .register => .ok (.reg o.reg, s)
  | .postInc =>
    let a := s.reg o.reg
    .ok (.mem a, s.setReg o.reg (a + 2))
  | .preDec =>
    let s1 := s.setReg o.reg (s.reg o.reg - 2)
    .ok (.mem (s1.reg o.reg), s1)
  | .indexed =>
    match s.fetchWord with
    | .error e => .error e
    | .ok (d, s1) => .ok (.mem (d + s1.reg o.reg), s1)
  | .indirect => .ok (.mem (s.reg o.reg), s)
  | .postIncIndirect =>
    let p := s.reg o.reg
    let s1 := s.setReg o.reg (p + 2)
    .ok (.mem (s1.opRead p), s1)
  | .preDecIndirect =>
    let s1 := s.setReg o.reg (s.reg o.reg - 2)
    .ok (.mem (s1.opRead (s1.reg o.reg)), s1)
  | .indexedIndirect =>
    match s.fetchWord with
    | .error e => .error e
    | .ok (d, s1) => .ok (.mem (s1.opRead (d + s1.reg o.reg)), s1)

/-- The target of JMP and JSR: the address a specifier denotes, refused for a register (R117, R119). -/
def resolveAddress (mnemonic : String) (o : Operand) (s : State) : Except Refusal (Word × State) :=
  match resolve o s with
  | .error e => .error e
  | .ok (.reg _, _) => .error (.noAddress mnemonic)
  | .ok (.mem a, s1) => .ok (a, s1)

/-- `LocRead(loc)` (R83). -/
def State.locRead (s : State) : Loc → Word
  | .reg r => s.reg r
  | .mem a => s.opRead a

/-- `LocWrite(loc, v)` (R83). A write to R7 is a jump (R12). -/
def State.locWrite (s : State) (loc : Loc) (v : Word) : State :=
  match loc with
  | .reg r => s.setReg r v
  | .mem a => s.opWrite a v

/-- The addresses whose bytes `LocWrite(loc, v)` stores (R30, R83). -/
def Loc.stored : Loc → List Word
  | .reg _ => []
  | .mem a => storedAddresses a

/-- A one-operand instruction (R130): the operand resolved once, read, and the result written back to the same
location. `f` gives the result and the flags from the operand and the old flags. -/
def oneOperand (o : Operand) (f : Word → Flags → Word × Flags) (s : State) :
    Host.Outcome State Fault Refusal :=
  match resolve o s with
  | .error e => .refused e
  | .ok (loc, s1) =>
    let r := f (s1.locRead loc) s1.flags
    .next ((s1.locWrite loc r.1).setFlags r.2)

/-- The common sequence of the two-operand instructions (R122): source resolved and read, then destination
resolved. `k` is the instruction's own part, on the source value and the destination's location. -/
def twoOperand (src dst : Operand) (k : Word → Loc → State → State) (s : State) :
    Host.Outcome State Fault Refusal :=
  match resolve src s with
  | .error e => .refused e
  | .ok (sloc, s1) =>
    match resolve dst s1 with
    | .error e => .refused e
    | .ok (dloc, s2) => .next (k (s1.locRead sloc) dloc s2)

/-- The own part of an instruction that reads and writes its destination (R122): `f` gives the result and the
flags from the destination's value, the source value and the old flags. -/
def combine (f : Word → Word → Flags → Word × Flags) (src : Word) (dloc : Loc) (s : State) : State :=
  let r := f (s.locRead dloc) src s.flags
  (s.locWrite dloc r.1).setFlags r.2

end Sys2Proof.Machine
end

