-- ==== Sys2Proof/Machine/ControlFlow.lean ====
section
/-! DEFINITION. The 15 branches, JMP, SOB, JSR and RTS (43_control_flow.md). None writes a condition code (R15). -/

namespace Sys2Proof.Machine

/-- `Branch(cccc, dd8)` (R100): `pc + sext_16(dd8)` if the condition holds; `pc` is past both bytes (R54). -/
def branchIf (cond : Bool) (dd8 : Byte) (s : State) : Host.Outcome State Fault Refusal :=
  .next (if cond then s.setPc (s.pc + dd8.signExtend 16) else s)

/-- BR: always (R102). -/
def execBr (dd8 : Byte) (s : State) : Host.Outcome State Fault Refusal := branchIf true dd8 s

/-- BNE (R103). -/
def execBne (dd8 : Byte) (s : State) : Host.Outcome State Fault Refusal := branchIf (condNE s.flags) dd8 s

/-- BEQ (R104). -/
def execBeq (dd8 : Byte) (s : State) : Host.Outcome State Fault Refusal := branchIf (condEQ s.flags) dd8 s

/-- BPL (R105). -/
def execBpl (dd8 : Byte) (s : State) : Host.Outcome State Fault Refusal := branchIf (condPL s.flags) dd8 s

/-- BMI (R106). -/
def execBmi (dd8 : Byte) (s : State) : Host.Outcome State Fault Refusal := branchIf (condMI s.flags) dd8 s

/-- BVC (R107). -/
def execBvc (dd8 : Byte) (s : State) : Host.Outcome State Fault Refusal := branchIf (condVC s.flags) dd8 s

/-- BVS (R108). -/
def execBvs (dd8 : Byte) (s : State) : Host.Outcome State Fault Refusal := branchIf (condVS s.flags) dd8 s

/-- BCC (R109). -/
def execBcc (dd8 : Byte) (s : State) : Host.Outcome State Fault Refusal := branchIf (condCC s.flags) dd8 s

/-- BCS (R110). -/
def execBcs (dd8 : Byte) (s : State) : Host.Outcome State Fault Refusal := branchIf (condCS s.flags) dd8 s

/-- BGE (R111). -/
def execBge (dd8 : Byte) (s : State) : Host.Outcome State Fault Refusal := branchIf (condGE s.flags) dd8 s

/-- BLT (R112). -/
def execBlt (dd8 : Byte) (s : State) : Host.Outcome State Fault Refusal := branchIf (condLT s.flags) dd8 s

/-- BGT (R113). -/
def execBgt (dd8 : Byte) (s : State) : Host.Outcome State Fault Refusal := branchIf (condGT s.flags) dd8 s

/-- BLE (R114). -/
def execBle (dd8 : Byte) (s : State) : Host.Outcome State Fault Refusal := branchIf (condLE s.flags) dd8 s

/-- BHI (R115). -/
def execBhi (dd8 : Byte) (s : State) : Host.Outcome State Fault Refusal := branchIf (condHI s.flags) dd8 s

/-- BLS (R116). -/
def execBls (dd8 : Byte) (s : State) : Host.Outcome State Fault Refusal := branchIf (condLS s.flags) dd8 s

/-- JMP: R7 becomes the operand's address, never its content (R117); refused on a register. -/
def execJmp (target : Operand) (s : State) : Host.Outcome State Fault Refusal :=
  match resolveAddress "JMP" target s with
  | .error e => .refused e
  | .ok (a, s1) => .next (s1.setPc a)

/-- SOB: the register down by 1, and back by `sext_16(dd8)` unless it is then 0 (R118). The pseudocode applies to R6,
R7 and a negative `dd8` as it stands (assumption log 13, 14). -/
def execSob (lreg : Reg) (dd8 : Byte) (s : State) : Host.Outcome State Fault Refusal :=
  let s1 := s.setReg lreg (s.reg lreg - 1)
  .next (if s1.reg lreg = 0 then s1 else s1.setPc (s1.pc - dd8.signExtend 16))

/-- JSR: the target resolved first, then the link register pushed, then linked to R7, then the jump (R119). -/
def execJsr (lreg : Reg) (target : Operand) (s : State) : Host.Outcome State Fault Refusal :=
  match resolveAddress "JSR" target s with
  | .error e => .refused e
  | .ok (a, s1) =>
    let s2 := s1.push (s1.reg lreg)
    let s3 := s2.setReg lreg s2.pc
    .next (s3.setPc a)

/-- RTS (R120), which also returns from an interrupt when `lreg` is R7 (R153). -/
def execRts (lreg : Reg) (s : State) : Host.Outcome State Fault Refusal := .next (s.returnVia lreg)

end Sys2Proof.Machine
end

