-- ==== Sys2Proof/Machine/General.lean ====
section
/-! DEFINITION. NOP and HLT (41_general.md), and the five first bytes the card leaves unassigned (30_encoding.md
R63). -/

namespace Sys2Proof.Machine

/-- NOP: nothing beyond the fetch (R90). -/
def execNop (s : State) : Host.Outcome State Fault Refusal := .next s

/-- HLT: `halted <- true` (R91). -/
def execHlt (s : State) : Host.Outcome State Fault Refusal := .next s.halt

/-- First byte 3Fh: `refuse ReservedOpcode(3Fh)` (R63). -/
def execReserved3F (_ : State) : Host.Outcome State Fault Refusal := .refused (.reservedOpcode 0x3F)

/-- First byte 8Ch: `refuse ReservedOpcode(8Ch)` (R63). -/
def execReserved8C (_ : State) : Host.Outcome State Fault Refusal := .refused (.reservedOpcode 0x8C)

/-- First byte 8Dh: `refuse ReservedOpcode(8Dh)` (R63). -/
def execReserved8D (_ : State) : Host.Outcome State Fault Refusal := .refused (.reservedOpcode 0x8D)

/-- First byte 8Eh: `refuse ReservedOpcode(8Eh)` (R63). -/
def execReserved8E (_ : State) : Host.Outcome State Fault Refusal := .refused (.reservedOpcode 0x8E)

/-- First byte 8Fh: `refuse ReservedOpcode(8Fh)` (R63). -/
def execReserved8F (_ : State) : Host.Outcome State Fault Refusal := .refused (.reservedOpcode 0x8F)

end Sys2Proof.Machine
end

