-- ==== Sys2Proof/Machine/OneOperand.lean ====
section
/-! DEFINITION. The twelve one-operand instructions (45_one_operand.md). -/

namespace Sys2Proof.Machine

/-- CLR (R131). -/
def execClr (op : Operand) (s : State) : Host.Outcome State Fault Refusal := oneOperand op clrOp s

/-- NOT (R132). -/
def execNot (op : Operand) (s : State) : Host.Outcome State Fault Refusal := oneOperand op notOp s

/-- INC (R133). -/
def execInc (op : Operand) (s : State) : Host.Outcome State Fault Refusal := oneOperand op incOp s

/-- DEC (R134). -/
def execDec (op : Operand) (s : State) : Host.Outcome State Fault Refusal := oneOperand op decOp s

/-- NEG (R135). -/
def execNeg (op : Operand) (s : State) : Host.Outcome State Fault Refusal := oneOperand op negOp s

/-- TST (R136); the value just read is written back. -/
def execTst (op : Operand) (s : State) : Host.Outcome State Fault Refusal := oneOperand op tstOp s

/-- ROR (R137). -/
def execRor (op : Operand) (s : State) : Host.Outcome State Fault Refusal := oneOperand op rorOp s

/-- ROL (R138). -/
def execRol (op : Operand) (s : State) : Host.Outcome State Fault Refusal := oneOperand op rolOp s

/-- ASR (R139). -/
def execAsr (op : Operand) (s : State) : Host.Outcome State Fault Refusal := oneOperand op asrOp s

/-- ASL (R140). -/
def execAsl (op : Operand) (s : State) : Host.Outcome State Fault Refusal := oneOperand op aslOp s

/-- ADC (R141). -/
def execAdc (op : Operand) (s : State) : Host.Outcome State Fault Refusal := oneOperand op adcOp s

/-- SBC (R142). -/
def execSbc (op : Operand) (s : State) : Host.Outcome State Fault Refusal :=
  oneOperand op (sbcOp s.config.sbcCMode) s

end Sys2Proof.Machine
end

