-- ==== Sys2Proof/Machine/TwoOperand.lean ====
section
/-! DEFINITION. MOV, ADD, SUB, CMP, AND, OR (44_two_operand.md). -/

namespace Sys2Proof.Machine

/-- MOV: `dst ← src` (R123). The destination is not read. -/
def execMov (src dst : Operand) (s : State) : Host.Outcome State Fault Refusal :=
  twoOperand src dst (fun v dloc t => (t.locWrite dloc v).setFlags (movFlags v t.flags)) s

/-- ADD: `dst ← dst + src` (R124). -/
def execAdd (src dst : Operand) (s : State) : Host.Outcome State Fault Refusal :=
  twoOperand src dst (combine addOp) s

/-- SUB: `dst ← dst - src` (R125). -/
def execSub (src dst : Operand) (s : State) : Host.Outcome State Fault Refusal :=
  twoOperand src dst (combine subOp) s

/-- CMP: the flags of `src - dst`; nothing is written (R126). -/
def execCmp (src dst : Operand) (s : State) : Host.Outcome State Fault Refusal :=
  twoOperand src dst (fun v dloc t => t.setFlags (cmpFlags v (t.locRead dloc))) s

/-- AND: `dst ← dst AND src` (R127). -/
def execAnd (src dst : Operand) (s : State) : Host.Outcome State Fault Refusal :=
  twoOperand src dst (combine andOp) s

/-- OR: `dst ← dst OR src` (R128). -/
def execOr (src dst : Operand) (s : State) : Host.Outcome State Fault Refusal :=
  twoOperand src dst (combine orOp) s

end Sys2Proof.Machine
end

