-- ==== Sys2Proof/Machine/Dispatch.lean ====
section
/-! DEFINITION. The meaning of each instruction, one arm per constructor of `Instr`, in the opcode table's order.
`exec i s` runs on the state in which R7 is already past the one or two instruction bytes (30_encoding.md R57). -/

namespace Sys2Proof.Machine

def exec (i : Instr) (s : State) : Host.Outcome State Fault Refusal :=
  match i with
  | .nop => Sys2Proof.Machine.execNop s
  | .ccc mask => Sys2Proof.Machine.execCcc mask s
  | .scc mask => Sys2Proof.Machine.execScc mask s
  | .br dd8 => Sys2Proof.Machine.execBr dd8 s
  | .bne dd8 => Sys2Proof.Machine.execBne dd8 s
  | .beq dd8 => Sys2Proof.Machine.execBeq dd8 s
  | .bpl dd8 => Sys2Proof.Machine.execBpl dd8 s
  | .bmi dd8 => Sys2Proof.Machine.execBmi dd8 s
  | .bvc dd8 => Sys2Proof.Machine.execBvc dd8 s
  | .bvs dd8 => Sys2Proof.Machine.execBvs dd8 s
  | .bcc dd8 => Sys2Proof.Machine.execBcc dd8 s
  | .bcs dd8 => Sys2Proof.Machine.execBcs dd8 s
  | .bge dd8 => Sys2Proof.Machine.execBge dd8 s
  | .blt dd8 => Sys2Proof.Machine.execBlt dd8 s
  | .bgt dd8 => Sys2Proof.Machine.execBgt dd8 s
  | .ble dd8 => Sys2Proof.Machine.execBle dd8 s
  | .bhi dd8 => Sys2Proof.Machine.execBhi dd8 s
  | .bls dd8 => Sys2Proof.Machine.execBls dd8 s
  | .reserved3F => Sys2Proof.Machine.execReserved3F s
  | .jmp target => Sys2Proof.Machine.execJmp target s
  | .sob lreg dd8 => Sys2Proof.Machine.execSob lreg dd8 s
  | .jsr lreg target => Sys2Proof.Machine.execJsr lreg target s
  | .rts lreg => Sys2Proof.Machine.execRts lreg s
  | .clr op => Sys2Proof.Machine.execClr op s
  | .not op => Sys2Proof.Machine.execNot op s
  | .inc op => Sys2Proof.Machine.execInc op s
  | .dec op => Sys2Proof.Machine.execDec op s
  | .neg op => Sys2Proof.Machine.execNeg op s
  | .tst op => Sys2Proof.Machine.execTst op s
  | .ror op => Sys2Proof.Machine.execRor op s
  | .rol op => Sys2Proof.Machine.execRol op s
  | .asr op => Sys2Proof.Machine.execAsr op s
  | .asl op => Sys2Proof.Machine.execAsl op s
  | .adc op => Sys2Proof.Machine.execAdc op s
  | .sbc op => Sys2Proof.Machine.execSbc op s
  | .reserved8C => Sys2Proof.Machine.execReserved8C s
  | .reserved8D => Sys2Proof.Machine.execReserved8D s
  | .reserved8E => Sys2Proof.Machine.execReserved8E s
  | .reserved8F => Sys2Proof.Machine.execReserved8F s
  | .mov src dst => Sys2Proof.Machine.execMov src dst s
  | .add src dst => Sys2Proof.Machine.execAdd src dst s
  | .sub src dst => Sys2Proof.Machine.execSub src dst s
  | .cmp src dst => Sys2Proof.Machine.execCmp src dst s
  | .and src dst => Sys2Proof.Machine.execAnd src dst s
  | .or src dst => Sys2Proof.Machine.execOr src dst s
  | .hlt => Sys2Proof.Machine.execHlt s

end Sys2Proof.Machine
end

