-- ==== Sys2Proof/Machine/Cycle.lean ====
section
/-! DEFINITION. One step of the processor (30_encoding.md R57), one move of an agent (20_memory.md R42), and the
load of an instruction where the next step fetches it. -/

namespace Sys2Proof.Machine

/-- The processor takes an interrupt at this boundary (R57, R150). -/
def State.takesInterrupt (s : State) : Bool := s.config.hasInterrupts && s.irq

/-- Fetch, decode, execute (R57). -/
def runInstr (s : State) : Host.Outcome State Fault Refusal :=
  match s.fetchInstr with
  | .error e => .refused e
  | .ok (i, s1) => exec i s1

/-- The processor's turn (R57): nothing when halted (assumption log 5), else an interrupt entry when one is
requested, else one instruction. -/
def processorTurn (s : State) : Host.Outcome State Fault Refusal :=
  if s.halted then .next s
  else if s.takesInterrupt then .next s.interruptEntry
  else runInstr s

/-- One move, of the agent the schedule names (R42, R161; assumption log 2). The devices act on a halted machine too
(R163). -/
def nextMove (s : State) : Host.Outcome State Fault Refusal :=
  match s.schedule.head with
  | .processor => processorTurn s.afterSchedule
  | .timer => .next s.afterSchedule.timerTurn
  | .key k => .next (s.afterSchedule.keyTurn k)

/-- A state in which the processor moves next and fetches an instruction: not halted, a move of the processor put
before those scheduled, and IE cleared if an interrupt would be taken instead (assumption log 8). -/
def State.readyToFetch (s : State) : State :=
  let s1 : State := { s with halted := false, schedule := .move .processor s.schedule }
  if s1.takesInterrupt then s1.setByte 0xFFD9 (s1.inte &&& 0x7F) else s1

/-- The instruction of a table row placed at R7, its six bytes as memory holds them, in a state ready to fetch
it. -/
def State.placeInstr (s : State) (nbits w : Nat) : State :=
  s.readyToFetch.storeBytes s.pc (tableBytes nbits w)

end Sys2Proof.Machine
end

