-- ==== Sys2Proof/Machine/Step.lean ====
section
/-! DEFINITION. The machine's step, and the state in which the next step runs a given instruction. -/

namespace Sys2Proof.Machine

/-- One step: one move of one agent (20_memory.md R42). -/
def step (s : State) : Host.Outcome State Fault Refusal := nextMove s

/-- `s` with the instruction whose table bits are `w` stored where `step` fetches its next instruction, at R7
(assumption log 8). -/
def State.withFetchWord (s : State) (nbits w : Nat) : State := s.placeInstr nbits w

end Sys2Proof.Machine
end

