-- ==== Sys2Proof/WellFormed.lean ====
section
/-! DEFINITION. Which terms of `Instr` the card gives an operation (30_encoding.md R63, R64): all but the five
unassigned first bytes, and all but JMP and JSR on a register, which has no address (43_control_flow.md R117,
R119). Every other combination of fields is an instruction (10_state.md R10). -/

namespace Sys2Proof

/-- A specifier that denotes an address: every mode but 000 (R73, R74). -/
def Operand.hasAddress (o : Operand) : Bool :=
  match o.mode with
  | .register => false
  | .postInc | .preDec | .indexed | .indirect
  | .postIncIndirect | .preDecIndirect | .indexedIndirect => true

/-- The card gives the instruction an operation. -/
def Instr.wellFormed : Instr → Bool
  | .nop => true
  | .ccc _ => true
  | .scc _ => true
  | .br _ => true
  | .bne _ => true
  | .beq _ => true
  | .bpl _ => true
  | .bmi _ => true
  | .bvc _ => true
  | .bvs _ => true
  | .bcc _ => true
  | .bcs _ => true
  | .bge _ => true
  | .blt _ => true
  | .bgt _ => true
  | .ble _ => true
  | .bhi _ => true
  | .bls _ => true
  | .reserved3F => false
  | .jmp target => target.hasAddress
  | .sob _ _ => true
  | .jsr _ target => target.hasAddress
  | .rts _ => true
  | .clr _ => true
  | .not _ => true
  | .inc _ => true
  | .dec _ => true
  | .neg _ => true
  | .tst _ => true
  | .ror _ => true
  | .rol _ => true
  | .asr _ => true
  | .asl _ => true
  | .adc _ => true
  | .sbc _ => true
  | .reserved8C => false
  | .reserved8D => false
  | .reserved8E => false
  | .reserved8F => false
  | .mov _ _ => true
  | .add _ _ => true
  | .sub _ _ => true
  | .cmp _ _ => true
  | .and _ _ => true
  | .or _ _ => true
  | .hlt => true

end Sys2Proof
end

