-- ==== Sys2Proof/Safety.lean ====
section
/-! DEFINITION. What counts as a safe run, and the conditions the spec names for one. A step is safe when it answers
a next state: the machine has no fault, and each refusal marks behaviour the spec gives no meaning (00_scope.md R8). -/

namespace Sys2Proof

/-- What R7 becomes when a specifier is resolved with R7 at `pc` (R75 to R82): past the extension word, or past the
word of the immediate and absolute forms, or back by 2 for the pre-decremented modes on R7. -/
def Operand.pcAfter (o : Operand) (pc : Word) : Word :=
  match o.mode, o.reg with
  | .indexed, _ => pc + 2
  | .indexedIndirect, _ => pc + 2
  | .postInc, .r7 => pc + 2
  | .postIncIndirect, .r7 => pc + 2
  | .preDec, .r7 => pc - 2
  | .preDecIndirect, .r7 => pc - 2
  | _, _ => pc

/-- The specifier's extension word, if it has one, can be fetched with R7 at `pc` (R56, R86). -/
def Operand.fetchable (o : Operand) (pc : Word) : Bool :=
  !o.hasExtension || decide (pc.toNat < 0xFFBF)

namespace Machine

/-- The extension words of an instruction's operands, in the order they are fetched (R53), can all be fetched: the
condition under which an instruction the card gives an operation completes. -/
def extensionsFetchable : List Operand → Word → Bool
  | [], _ => true
  | o :: rest, pc => o.fetchable pc && extensionsFetchable rest (o.pcAfter pc)

/-- The step answers a next state. -/
def SafeStep (s : State) : Prop := ∃ t, step s = .next t

/-- `n` steps, each safe, lead from one state to another. -/
def SafeRun : Nat → State → State → Prop
  | 0, s, t => s = t
  | n + 1, s, t => ∃ u, step s = .next u ∧ SafeRun n u t

/-- The processor is the one that moves at this step (20_memory.md R42). -/
def State.processorMoves (s : State) : Prop := s.schedule.head = .processor

/-- IE is 0: no interrupt is taken, whatever the devices do (R161, case 2). -/
def State.interruptsOff (s : State) : Prop := s.inte.getLsbD 7 = false

/-- The stack that R167 asks for before JSR, RTS or an interrupt entry: a push and a pop at R6 move whole words
below the reserved area (R101, R35). -/
def State.stackReady (s : State) : Prop := 2 ≤ s.sp.toNat ∧ s.sp.toNat ≤ 0xFF80

/-- What R167 asks of the control bytes before IE is set: nothing pending, IP clear, no key available. -/
def State.devicesQuiet (s : State) : Prop := s.ints = 0 ∧ s.tecst = 0

end Machine

end Sys2Proof
end

