-- ==== Sys2Proof/Certificates/Slice0/Obligations.lean ====
section
/-! DEFINITION. The statements about the model. Each says in its docstring which rule of spec/ it formalises; where
the rule is marked by the spec as its own decision, or the point is the model's choice, the docstring names the
decision D<n> of 92_eei_decisions.md or the log entry, and the statement's basis is 'derived'. -/

namespace Sys2Proof.Claims

open Sys2Proof.Machine

/-! ## Words the statements share -/

/-- The two bytes at R7. -/
def bytesAtPc (s : State) : List Byte := [s.byte s.pc, s.byte (s.pc + 1)]

/-- The processor moves, is not halted and takes no interrupt: this step fetches an instruction (R57). -/
def Fetches (s : State) : Prop := s.processorMoves ∧ s.halted = false ∧ s.takesInterrupt = false

/-- The bits of a first byte the decoder looks at (R51, R62). -/
def careFirst (b1 : Byte) : Byte :=
  match highNibble b1 with
  | 0 | 4 | 15 => 0xF0
  | 5 | 6 | 7 => 0xF7
  | _ => 0xFF

/-- The bits of a second byte the decoder looks at (R51, R62). -/
def careSecond (b1 : Byte) : Byte :=
  match highNibble b1 with
  | 4 | 6 | 8 => 0x3F
  | _ => 0xFF

/-- The five unassigned first bytes (R63). -/
def reservedBytes : List Byte := [0x3F, 0x8C, 0x8D, 0x8E, 0x8F]

/-- The five constructors of the unassigned first bytes. -/
def isReserved : Instr → Bool
  | .reserved3F | .reserved8C | .reserved8D | .reserved8E | .reserved8F => true
  | _ => false

/-- `xxmmmrrr`: the specifier a second byte holds (R52). -/
def specifierIn (b2 : Byte) : Operand :=
  { mode := Mode.ofBits (b2.extractLsb' 3 3), reg := Reg.ofBits (b2.extractLsb' 0 3) }

/-- Format F1 with first byte `b1` (R51, R130). -/
def EncodedF1 (b1 : Byte) (c : Operand → Instr) : Prop :=
  ∀ b2 rest, decode (b1 :: b2 :: rest) = .ok (c (specifierIn b2), rest)

/-- Format F2 with first nibble `n` (R51, R52, R122). -/
def EncodedF2 (n : Nat) (c : Operand → Operand → Instr) : Prop :=
  ∀ b1 b2 rest, highNibble b1 = n →
    decode (b1 :: b2 :: rest) =
      .ok (c { mode := Mode.ofBits (b1.extractLsb' 1 3)
               reg := Reg.ofBits (b1.extractLsb' 0 1 ++ b2.extractLsb' 6 2) } (specifierIn b2), rest)

/-- `pc + d` for a displacement of `d` bytes, modulo 65536. -/
def displaced (s : State) (d : Int) : State := s.setPc (BitVec.ofInt 16 (s.pc.toInt + d))

/-- A branch with first byte `b1`: its encoding, its effect when the flags satisfy `cond` and when they do not, and
the same of a step at an address `A`, where the displacement counts from `A + 2` (R100). -/
def Branches (b1 : Byte) (c : Byte → Instr) (cond : Flags → Prop) : Prop :=
  (∀ dd8 rest, decode (b1 :: dd8 :: rest) = .ok (c dd8, rest)) ∧
  (∀ dd8 s, (cond s.flags → exec (c dd8) s = .next (displaced s dd8.toInt)) ∧
    (¬ cond s.flags → exec (c dd8) s = .next s)) ∧
  ∀ s : State, Fetches s → s.pc.toNat < 0xFFBF → s.byte s.pc = b1 →
    let u := s.afterSchedule.setPc (s.pc + 2)
    (cond s.flags → step s = .next (displaced u (s.byte (s.pc + 1)).toInt)) ∧ (¬ cond s.flags → step s = .next u)

/-- What 20_memory.md section 5 says an address is used for (R35; 90_conflicts.md C3, C4). -/
def useOf (a : Word) : RegionUse :=
  if a.toNat ≤ 0xFF7F then .programAndStack
  else if a.toNat ≤ 0xFFBD then .reservedWords
  else if a.toNat ≤ 0xFFBF then .ivet
  else if a.toNat ≤ 0xFFD6 then .reservedBytes
  else if a = 0xFFD7 then .timdt
  else if a = 0xFFD8 then .ints
  else if a = 0xFFD9 then .inte
  else if a = 0xFFDA then .tecst
  else if a = 0xFFDB then .tecdt
  else .display

/-- An integer that no 16-bit word holds in two's complement. -/
def outOfRange (x : Int) : Bool := decide (x < -32768) || decide (32767 < x)

/-- The two specifiers of a two-operand instruction, resolved in order (R122). -/
def Resolved (src dst : Operand) (s : State) (sloc : Loc) (s1 : State) (dloc : Loc) (s2 : State) : Prop :=
  resolve src s = .ok (sloc, s1) ∧ resolve dst s1 = .ok (dloc, s2)

/-! ## Frames -/

/-- The register a specifier's mode steps (R75, R76, R79, R80). -/
def steppedReg (o : Operand) : List Reg :=
  match o.mode with
  | .postInc | .preDec | .postIncIndirect | .preDecIndirect => [o.reg]
  | .register | .indexed | .indirect | .indexedIndirect => []

/-- The register a destination specifier is (R74). -/
def destReg (o : Operand) : List Reg :=
  match o.mode with
  | .register => [o.reg]
  | _ => []

/-- The registers an instruction may write, R7 apart: its destination, its link register, R6 where it uses the
stack, and the registers its modes step. -/
def writtenRegs : Instr → List Reg
  | .jmp o | .tst o => steppedReg o
  | .sob r _ => [r]
  | .jsr r o => r :: .r6 :: steppedReg o
  | .rts r => [r, .r6]
  | .clr o | .not o | .inc o | .dec o | .neg o | .ror o | .rol o | .asr o | .asl o | .adc o | .sbc o =>
    steppedReg o ++ destReg o
  | .mov s d | .add s d | .sub s d | .and s d | .or s d => steppedReg s ++ steppedReg d ++ destReg d
  | .cmp s d => steppedReg s ++ steppedReg d
  | _ => []

/-- The addresses a destination specifier stores to, from the state in which it is resolved. -/
def storedVia (o : Operand) (s : State) : List Word :=
  match resolve o s with
  | .ok (loc, _) => loc.stored
  | .error _ => []

/-- The addresses whose bytes an instruction may store: its destination's, or JSR's stack word. TST and CMP are
among those that store nothing. -/
def storedBy (i : Instr) (s : State) : List Word :=
  match i with
  | .clr o | .not o | .inc o | .dec o | .neg o | .ror o | .rol o | .asr o | .asl o | .adc o | .sbc o =>
    storedVia o s
  | .mov src dst | .add src dst | .sub src dst | .and src dst | .or src dst =>
    match resolve src s with
    | .ok (_, s1) => storedVia dst s1
    | .error _ => []
  | .jsr _ o =>
    match resolve o s with
    | .ok (_, s1) => storedAddresses (s1.sp - 2)
    | .error _ => []
  | _ => []

/-- The condition codes an instruction may write (R15). -/
def writtenFlags : Instr → FlagMask
  | .ccc m | .scc m => m
  | .mov _ _ | .and _ _ | .or _ _ => { n := true, z := true, v := true, c := false }
  | .clr _ | .not _ | .inc _ | .dec _ | .neg _ | .tst _ => { n := true, z := true, v := true, c := true }
  | .ror _ | .rol _ | .asr _ | .asl _ | .adc _ | .sbc _ => { n := true, z := true, v := true, c := true }
  | .add _ _ | .sub _ _ | .cmp _ _ => { n := true, z := true, v := true, c := true }
  | _ => { n := false, z := false, v := false, c := false }

/-- All that `i` leaves unchanged from `s` to `t`: every register but R7 and those of `writtenRegs`, every byte of
memory but those of `storedBy`, every condition code but those of `writtenFlags`, `halted` (but for HLT), and the
model's own fields. -/
def Frame (i : Instr) (s t : State) : Prop :=
  (∀ r, r ≠ .r7 → r ∉ writtenRegs i → t.reg r = s.reg r) ∧
  (∀ a, a ∉ storedBy i s → t.byte a = s.byte a) ∧
  ((writtenFlags i).n = false → t.flags.n = s.flags.n) ∧
  ((writtenFlags i).z = false → t.flags.z = s.flags.z) ∧
  ((writtenFlags i).v = false → t.flags.v = s.flags.v) ∧
  ((writtenFlags i).c = false → t.flags.c = s.flags.c) ∧
  (i ≠ .hlt → t.halted = s.halted) ∧
  t.config = s.config ∧ t.schedule = s.schedule

/-- NOP, HLT, CCC, SCC. -/
def isGeneral : Instr → Bool
  | .nop | .hlt | .ccc _ | .scc _ => true
  | _ => false

/-- The 15 branches, JMP, SOB, JSR, RTS. -/
def isControlFlow : Instr → Bool
  | .br _ | .bne _ | .beq _ | .bpl _ | .bmi _ | .bvc _ | .bvs _ | .bcc _ | .bcs _ => true
  | .bge _ | .blt _ | .bgt _ | .ble _ | .bhi _ | .bls _ => true
  | .jmp _ | .sob _ _ | .jsr _ _ | .rts _ => true
  | _ => false

/-- The twelve one-operand instructions. -/
def isOneOperand : Instr → Bool
  | .clr _ | .not _ | .inc _ | .dec _ | .neg _ | .tst _ => true
  | .ror _ | .rol _ | .asr _ | .asl _ | .adc _ | .sbc _ => true
  | _ => false

/-- The six two-operand instructions. -/
def isTwoOperand : Instr → Bool
  | .mov _ _ | .add _ _ | .sub _ _ | .cmp _ _ | .and _ _ | .or _ _ => true
  | _ => false

/-- A specifier that moves R7 forward over its own words only: not a pre-decremented mode on R7. -/
def movesForward (o : Operand) : Bool :=
  match o.mode, o.reg with
  | .preDec, .r7 => false
  | .preDecIndirect, .r7 => false
  | _, _ => true

/-- An instruction after which R7 holds the address of the byte after it: no control flow, no pre-decremented mode
on R7, and no destination that is R7. -/
def straightLine (i : Instr) : Bool :=
  isGeneral i ||
    ((isOneOperand i || isTwoOperand i) && i.operands.all movesForward &&
      (i.operands.getLast? != some { mode := .register, reg := .r7 }))

end Sys2Proof.Claims

open Sys2Proof Sys2Proof.Machine Sys2Proof.Claims

/-! ## Encoding -/

/-- The decoder reads back every instruction the encoder writes, whatever bytes follow (30_encoding.md R51, R52, R58
to R61). The layout of F2 rests on D11, the written don't-care bits on D22. -/
def Obligations.DecodeInvertsEncode : Prop :=
  ∀ (i : Instr) (rest : List Byte), decode (encode i ++ rest) = .ok (i, rest)

/-- The encoder writes back the bytes the decoder read, with 0 in the don't-care bits (30_encoding.md R62, D22): two
pairs of bytes decode to one instruction only if they differ in don't-care bits alone. -/
def Obligations.EncodeInvertsDecode : Prop :=
  ∀ b1 b2 : Byte,
    encode (decodePair b1 b2) =
      if hasSecondByte b1 then [b1 &&& careFirst b1, b2 &&& careSecond b1] else [b1 &&& careFirst b1]

/-- A don't-care bit is ignored: the instruction is the same for either value; every byte 00h..0Fh is NOP, every byte
F0h..FFh is HLT, and 78h..7Fh are RTS R0..R7 like 70h..77h (30_encoding.md R62, D22). -/
def Obligations.DontCareBitsIgnored : Prop :=
  (∀ b1 b2 b1' b2' : Byte, b1 &&& careFirst b1 = b1' &&& careFirst b1' →
      b2 &&& careSecond b1 = b2' &&& careSecond b1' → decodePair b1 b2 = decodePair b1' b2') ∧
  (∀ b1 b2 : Byte, b1.toNat < 0x10 → decodePair b1 b2 = .nop) ∧
  (∀ b1 b2 : Byte, 0xF0 ≤ b1.toNat → decodePair b1 b2 = .hlt) ∧
  (∀ k : BitVec 3, ∀ b2 : Byte,
      decodePair (0x70 + k.setWidth 8) b2 = .rts (Reg.ofBits k) ∧
      decodePair (0x78 + k.setWidth 8) b2 = .rts (Reg.ofBits k))

/-- Every first byte decodes, and it decodes to a constructor without a meaning exactly for the five unassigned
values (30_encoding.md R58, R63; D21). -/
def Obligations.OnlyFiveFirstBytesUnassigned : Prop :=
  ∀ (b1 b2 : Byte) (rest : List Byte),
    ∃ i rest', decode (b1 :: b2 :: rest) = .ok (i, rest') ∧ (isReserved i = true ↔ b1 ∈ reservedBytes)

/-- A few words of 95_test_vectors.md, written out from 30_encoding.md, decode to the instructions they stand for. -/
def Obligations.SampleWordsDecode : Prop :=
  decode [0x93, 0xC0, 0x00, 0x05] = .ok (.mov ⟨.postInc, .r7⟩ ⟨.register, .r0⟩, [0x00, 0x05]) ∧
  decode [0xA6, 0x5A] = .ok (.add ⟨.indexed, .r1⟩ ⟨.indexed, .r2⟩, []) ∧
  decode [0x67, 0x2F, 0x02, 0x00] = .ok (.jsr .r7 ⟨.postIncIndirect, .r7⟩, [0x02, 0x00]) ∧
  decode [0x51, 0x04] = .ok (.sob .r1 0x04, []) ∧
  decode [0x15] = .ok (.ccc ⟨false, true, false, true⟩, []) ∧
  decode [0x80, 0xC1] = .ok (.clr ⟨.register, .r1⟩, []) ∧
  decode [0x31] = .error (.missingSecondByte 0x31)

/-- An instruction is 1, 2, 4 or 6 bytes long, and a straight-line one leaves R7 at the byte after it
(30_encoding.md R50, R65; 40_addressing_modes.md R82; the place of the extension words is D13). -/
def Obligations.StraightLineAdvances : Prop :=
  (∀ i : Instr, i.length ∈ [1, 2, 4, 6]) ∧
  ∀ (i : Instr) (s t : State), straightLine i = true → exec i s = .next t →
    t.pc = s.pc + BitVec.ofNat 16 (i.length - (encode i).length)

/-! ## Registers and addressing modes -/

/-- Eight registers, selected by the codes 000 to 111, none hardwired: a register reads what was last written to it,
and writing one leaves the others (10_state.md section 1). -/
def Obligations.RegistersAreEightPlainWords : Prop :=
  ([0, 1, 2, 3, 4, 5, 6, 7] : List (BitVec 3)).map Reg.ofBits = [.r0, .r1, .r2, .r3, .r4, .r5, .r6, .r7] ∧
  ∀ (s : State) (r q : Reg) (w : Word), (s.setReg r w).reg q = if q = r then w else s.reg q

/-- Modes 000, 001, 010 and 100 (40_addressing_modes.md section 2): the location, the register stepped by 2 or left,
and nothing else changed. That the form -(R7) runs as it is written, where the spec recommends a refusal (D39), is the
model's choice (log entry 13). -/
def Obligations.DirectModesResolve : Prop :=
  ∀ (r : Reg) (s : State),
    resolve ⟨.register, r⟩ s = .ok (.reg r, s) ∧
    resolve ⟨.postInc, r⟩ s = .ok (.mem (s.reg r), s.setReg r (s.reg r + 2)) ∧
    resolve ⟨.preDec, r⟩ s = .ok (.mem (s.reg r - 2), s.setReg r (s.reg r - 2)) ∧
    resolve ⟨.indirect, r⟩ s = .ok (.mem (s.reg r), s)

/-- Modes 101 and 110 (40_addressing_modes.md section 2): the pointer is the operand at the register, read as `OpRead`
reads it, and the register is stepped by 2. That the form (-(R7)) runs as it is written, where the spec recommends a
refusal (D39), is the model's choice (log entry 13). -/
def Obligations.PointerModesResolve : Prop :=
  ∀ (r : Reg) (s : State),
    resolve ⟨.postIncIndirect, r⟩ s = .ok (.mem (s.opRead (s.reg r)), s.setReg r (s.reg r + 2)) ∧
    resolve ⟨.preDecIndirect, r⟩ s = .ok (.mem (s.opRead (s.reg r - 2)), s.setReg r (s.reg r - 2))

/-- Modes 011 and 111 (40_addressing_modes.md section 2, D13): the word at R7 is added, R7 moves past it, and with R7
as the register the sum is taken after that; at or above FFBFh the fetch refuses (30_encoding.md section 3, D7). -/
def Obligations.IndexedModesResolve : Prop :=
  ∀ (r : Reg) (s : State),
    (s.pc.toNat < 0xFFBF →
      let base := if r = .r7 then s.pc + 2 else s.reg r
      let a := s.memWord s.pc + base
      resolve ⟨.indexed, r⟩ s = .ok (.mem a, s.setPc (s.pc + 2)) ∧
      resolve ⟨.indexedIndirect, r⟩ s = .ok (.mem (s.opRead a), s.setPc (s.pc + 2))) ∧
    (0xFFBF ≤ s.pc.toNat →
      resolve ⟨.indexed, r⟩ s = .error (.fetchFromByteArea s.pc) ∧
      resolve ⟨.indexedIndirect, r⟩ s = .error (.fetchFromByteArea s.pc))

/-- The modes derived with R7 (40_addressing_modes.md section 3, D13), below the 8-bit area: the immediate operand is
the word at R7, the absolute operand is at the address that word holds, the relative ones are at that word's
distance from the byte after it; each steps R7 over the word. -/
def Obligations.ProgramCounterModes : Prop :=
  ∀ s : State, s.pc.toNat < 0xFFBF →
    let w := s.memWord s.pc
    let s1 := s.setPc (s.pc + 2)
    (∃ a, resolve ⟨.postInc, .r7⟩ s = .ok (.mem a, s1) ∧ s1.opRead a = w) ∧
    resolve ⟨.postIncIndirect, .r7⟩ s = .ok (.mem w, s1) ∧
    resolve ⟨.indexed, .r7⟩ s = .ok (.mem (w + (s.pc + 2)), s1) ∧
    resolve ⟨.indexedIndirect, .r7⟩ s = .ok (.mem (s.opRead (w + (s.pc + 2))), s1)

/-- No addressing mode faults: a specifier resolves wherever its extension word can be fetched, and refuses with
`FetchFromByteArea` otherwise; it writes no memory and no flag, no register but its own and R7, and it leaves R7
where `pcAfter` says (40_addressing_modes.md sections 2 and 5; D7, D13). That -(R7) and (-(R7)) resolve, with R7 back
by 2, where the spec recommends a refusal (D39), is the model's choice (log entry 13). -/
def Obligations.SpecifierResolvesOrRefuses : Prop :=
  ∀ (o : Operand) (s : State),
    (o.fetchable s.pc = true →
      ∃ loc s1, resolve o s = .ok (loc, s1) ∧ s1.pc = o.pcAfter s.pc ∧ s1.mem = s.mem ∧ s1.flags = s.flags ∧
        s1.halted = s.halted ∧ ∀ r, r ≠ .r7 → r ∉ steppedReg o → s1.reg r = s.reg r) ∧
    (o.fetchable s.pc = false → resolve o s = .error (.fetchFromByteArea s.pc))

/-! ## Memory -/

/-- `OpWrite` below FFC0h stores the high byte at the address and the low byte after it, at or above FFC0h the low
byte alone; every other byte and every register stays (20_memory.md sections 1, 2 and 4; D3, D6; at FFBFh the
formula of R32, log entry 12). -/
def Obligations.OperandWriteStoresBytes : Prop :=
  ∀ (s : State) (a v : Word),
    let t := s.opWrite a v
    (a.toNat < 0xFFC0 → t.byte a = v.extractLsb' 8 8 ∧ t.byte (a + 1) = v.extractLsb' 0 8 ∧
      ∀ b, b ≠ a → b ≠ a + 1 → t.byte b = s.byte b) ∧
    (0xFFC0 ≤ a.toNat → t.byte a = v.extractLsb' 0 8 ∧ ∀ b, b ≠ a → t.byte b = s.byte b) ∧
    t.regs = s.regs ∧ t.flags = s.flags ∧ t.halted = s.halted

/-- An operand read back is the one written: the whole word below FFC0h, its low byte with a zero high byte in the
8-bit area (20_memory.md section 4; D3, D6; at FFBFh log entry 12). -/
def Obligations.OperandReadAfterWrite : Prop :=
  ∀ (s : State) (a v : Word),
    (s.opWrite a v).opRead a = if a.toNat < 0xFFC0 then v else BitVec.ofNat 16 (v.toNat % 256)

/-- Two memories in the canonical form that read the same at every address are the same data. -/
def Obligations.EqualReadsEqualMemories : Prop :=
  ∀ m m' : Memory, m.wf → m'.wf → (∀ a, m.read a = m'.read a) → m = m'

/-- Every step, of the processor or of a device, keeps memory's canonical form. -/
def Obligations.StepKeepsMemoryCanonical : Prop :=
  ∀ s t : State, s.mem.wf → step s = .next t → t.mem.wf

/-- The memory after reset has the canonical form. -/
def Obligations.ResetMemoryCanonical : Prop := State.reset.mem.wf

/-- The ranges of the address map (20_memory.md section 5; 90_conflicts.md C3, C4) part the 65536 addresses, each
address has the use the section gives it, the sizes are the card's, and operand accesses are bytes exactly in the
ranges from FFC0h up (D6). -/
def Obligations.AddressMapPartitions : Prop :=
  (∀ a : Word, ∃ g ∈ addressMap, g.holds a = true ∧ g.use = useOf a ∧ g.byteAccess = decide (0xFFC0 ≤ a.toNat) ∧
    ∀ g' ∈ addressMap, g'.holds a = true → g' = g) ∧
  addressMap.map (fun g => g.last + 1 - g.first) = [65408, 62, 2, 23, 1, 1, 1, 1, 1, 36]

/-- The launch state of 70_reset_and_hazards.md section 1 (suggested there, D35; the model's choice, log entries 6
and 7): registers and flags zero, not halted, the display spaces and every other byte 00h. -/
def Obligations.ResetIsSuggestedLaunchState : Prop :=
  (∀ r, State.reset.reg r = 0) ∧ State.reset.flags = ⟨false, false, false, false⟩ ∧
  State.reset.halted = false ∧
  ∀ a : Word, State.reset.byte a = if a.toNat < 0xFFDC then 0x00 else 0x20

/-- The display is the 36 bytes from FFDCh: an operand stored at position `k` shows its low byte there and leaves the
other positions; a store below the display leaves it all (60_exceptions.md section 4, D31). -/
def Obligations.DisplayShowsStores : Prop :=
  ∀ (s : State) (v : Word),
    s.display.length = 36 ∧
    (∀ k, k < 36 → (s.opWrite (BitVec.ofNat 16 (0xFFDC + k)) v).display = s.display.set k (v.extractLsb' 0 8)) ∧
    ∀ a : Word, a.toNat < 0xFFDC → (s.opWrite a v).display = s.display

/-! ## General and condition-code instructions -/

/-- NOP (41_general.md R90): all 16 encodings; nothing beyond the fetch, which moves R7 by one byte. -/
def Obligations.NopOnlyAdvances : Prop :=
  (∀ b1 rest, highNibble b1 = 0 → decode (b1 :: rest) = .ok (.nop, rest)) ∧
  (∀ s : State, exec .nop s = .next s) ∧
  ∀ s : State, Fetches s → s.pc.toNat < 0xFFC0 → highNibble (s.byte s.pc) = 0 →
    step s = .next (s.afterSchedule.setPc (s.pc + 1))

/-- HLT sets `halted` and nothing else beyond the fetch, and a halted processor's turn changes nothing
(41_general.md, 60_exceptions.md section 5; D23; the turn that passes is log entry 5). -/
def Obligations.HltStops : Prop :=
  (∀ b1 rest, highNibble b1 = 15 → decode (b1 :: rest) = .ok (.hlt, rest)) ∧
  (∀ s : State, exec .hlt s = .next { s with halted := true }) ∧
  (∀ s : State, Fetches s → s.pc.toNat < 0xFFC0 → highNibble (s.byte s.pc) = 15 →
    step s = .next (({ s.afterSchedule with halted := true } : State).setPc (s.pc + 1))) ∧
  ∀ s : State, s.processorMoves → s.halted = true → step s = .next s.afterSchedule

/-- CCC clears and SCC sets the flags whose mask bit is 1; the others, and all else, stay (42_condition_codes.md,
D20). -/
def Obligations.CccSccSelectFlags : Prop :=
  ∀ (m : FlagMask) (s : State),
    exec (.ccc m) s = .next (s.setFlags
      { n := if m.n then false else s.flags.n, z := if m.z then false else s.flags.z
        v := if m.v then false else s.flags.v, c := if m.c then false else s.flags.c }) ∧
    exec (.scc m) s = .next (s.setFlags
      { n := if m.n then true else s.flags.n, z := if m.z then true else s.flags.z
        v := if m.v then true else s.flags.v, c := if m.c then true else s.flags.c })

/-! ## Control flow -/

/-- BR and the branches on one flag (43_control_flow.md sections 1 and 2): encoding, condition, and the byte
displacement added to R7 modulo 65536; not taken, nothing changes. That the displacement is signed is the spec's D9,
that it counts from `A + 2` its D8 and D9. -/
def Obligations.FlagBranches : Prop :=
  Branches 0x30 .br (fun _ => True) ∧
  Branches 0x31 .bne (fun f => f.z = false) ∧
  Branches 0x32 .beq (fun f => f.z = true) ∧
  Branches 0x33 .bpl (fun f => f.n = false) ∧
  Branches 0x34 .bmi (fun f => f.n = true) ∧
  Branches 0x35 .bvc (fun f => f.v = false) ∧
  Branches 0x36 .bvs (fun f => f.v = true) ∧
  Branches 0x37 .bcc (fun f => f.c = false) ∧
  Branches 0x38 .bcs (fun f => f.c = true)

/-- The branches on a comparison (43_control_flow.md sections 1 and 2), as `FlagBranches`: the signed displacement
counted from `A + 2` is the spec's D8 and D9. -/
def Obligations.ComparisonBranches : Prop :=
  Branches 0x39 .bge (fun f => f.n = f.v) ∧
  Branches 0x3A .blt (fun f => f.n ≠ f.v) ∧
  Branches 0x3B .bgt (fun f => f.n = f.v ∧ f.z = false) ∧
  Branches 0x3C .ble (fun f => f.n ≠ f.v ∨ f.z = true) ∧
  Branches 0x3D .bhi (fun f => f.c = false ∧ f.z = false) ∧
  Branches 0x3E .bls (fun f => f.c = true ∨ f.z = true)

/-- After `CMP a, b` the branches compare: BEQ and BNE for equality, BGE, BLT, BGT, BLE as signed numbers, BHI, BLS,
BCC, BCS as unsigned ones (44_two_operand.md section 2; 43_control_flow.md section 1; D17). -/
def Obligations.CompareThenBranch : Prop :=
  ∀ (src dst : Operand) (s t : State) (d : Byte), exec (.cmp src dst) s = .next t →
    ∃ sloc s1 dloc s2, Resolved src dst s sloc s1 dloc s2 ∧
      let a := s1.locRead sloc
      let b := s2.locRead dloc
      let taken : State := displaced t d.toInt
      exec (.beq d) t = .next (if a = b then taken else t) ∧
      exec (.bne d) t = .next (if a = b then t else taken) ∧
      exec (.bge d) t = .next (if b.toInt ≤ a.toInt then taken else t) ∧
      exec (.blt d) t = .next (if a.toInt < b.toInt then taken else t) ∧
      exec (.bgt d) t = .next (if b.toInt < a.toInt then taken else t) ∧
      exec (.ble d) t = .next (if a.toInt ≤ b.toInt then taken else t) ∧
      exec (.bhi d) t = .next (if b.toNat < a.toNat then taken else t) ∧
      exec (.bls d) t = .next (if a.toNat ≤ b.toNat then taken else t) ∧
      exec (.bcc d) t = .next (if b.toNat ≤ a.toNat then taken else t) ∧
      exec (.bcs d) t = .next (if a.toNat < b.toNat then taken else t)

/-- JMP through any mode but the register: R7 becomes the operand's address, after the mode's side effects
(43_control_flow.md section 3, D15; that -(R7) and (-(R7)) are among the modes, D39, is log entry 13). -/
def Obligations.JmpGoesToAddress : Prop :=
  ∀ (o : Operand) (s : State), o.hasAddress = true → o.fetchable s.pc = true →
    ∃ a s1, resolve o s = .ok (.mem a, s1) ∧ exec (.jmp o) s = .next (s1.setPc a)

/-- SOB: the register down by 1 modulo 65536; unless it was 1, R7 back by the signed displacement. R6 and R7 as the
register are included (43_control_flow.md section 3; D10, D39; log entries 13 and 14). -/
def Obligations.SobCountsDown : Prop :=
  ∀ (r : Reg) (d : Byte) (s : State),
    let s1 := s.setReg r (s.reg r - 1)
    exec (.sob r d) s = .next (if s.reg r = 1 then s1 else displaced s1 (-d.toInt))

/-- JSR: the target is the operand's address, the link register's old value is stored at R6 minus 2, the link
register receives the address after the instruction; flags and all other registers and bytes stay. With R7 as the
link register that is the plain call; with R6 the last write wins (43_control_flow.md section 3; D14, D15, D39; log
entry 13). -/
def Obligations.JsrLinks : Prop :=
  ∀ (l : Reg) (o : Operand) (s : State), o.hasAddress = true → o.fetchable s.pc = true →
    ∃ a s1 t, resolve o s = .ok (.mem a, s1) ∧ exec (.jsr l o) s = .next t ∧
      t.pc = a ∧
      (l ≠ .r7 → t.reg l = s1.pc) ∧
      (l ≠ .r6 → t.sp = s1.sp - 2) ∧
      (∀ q, q ≠ l → q ≠ .r6 → q ≠ .r7 → t.reg q = s1.reg q) ∧
      t.opRead (s1.sp - 2) =
        (if (s1.sp - 2).toNat < 0xFFC0 then s1.reg l else BitVec.ofNat 16 ((s1.reg l).toNat % 256)) ∧
      (∀ b, b ∉ storedAddresses (s1.sp - 2) → t.byte b = s.byte b) ∧
      t.flags = s.flags ∧ t.halted = s.halted

/-- RTS: R7 receives the link register, the link register receives the word popped; with R7 as the link register R7
receives the word; flags, memory and the other registers stay (43_control_flow.md section 3; D14, D39; log entry
13). -/
def Obligations.RtsReturns : Prop :=
  ∀ (l : Reg) (s : State), ∃ t, exec (.rts l) s = .next t ∧
    t.pc = (if l = .r7 then s.opRead s.sp else s.reg l) ∧
    (l ≠ .r7 → t.reg l = s.opRead s.sp) ∧
    (l ≠ .r6 → t.sp = s.sp + 2) ∧
    (∀ q, q ≠ l → q ≠ .r6 → q ≠ .r7 → t.reg q = s.reg q) ∧
    t.mem = s.mem ∧ t.flags = s.flags ∧ t.halted = s.halted

/-- A subroutine called by JSR and left by the RTS of the same link register, with R6, the stack word and (unless it
is R7) the link register as the call left them, returns to the byte after the JSR with R6 and the link register as
they were, where the stack word lies below FFC0h (43_control_flow.md sections 3 and 4; D14). -/
def Obligations.CallThenReturn : Prop :=
  ∀ (l : Reg) (o : Operand) (a : Word) (s s1 t u : State), l ≠ .r6 →
    resolve o s = .ok (.mem a, s1) → (s1.sp - 2).toNat < 0xFFC0 → exec (.jsr l o) s = .next t →
    u.sp = t.sp → u.opRead t.sp = t.opRead t.sp → (l ≠ .r7 → u.reg l = t.reg l) →
    ∃ w, exec (.rts l) u = .next w ∧ w.pc = s1.pc ∧ w.sp = s1.sp ∧ (l ≠ .r7 → w.reg l = s1.reg l)

/-! ## Two-operand instructions -/

/-- MOV (44_two_operand.md section 2): encoding; the source value in the destination; N and Z of the 16-bit value, V
cleared, C unchanged. The place of the source's register field is the spec's D11, the order of the specifiers D12,
the unchanged C D16. -/
def Obligations.MovCopies : Prop :=
  EncodedF2 9 .mov ∧
  ∀ (src dst : Operand) (s : State), extensionsFetchable [src, dst] s.pc = true →
    ∃ sloc s1 dloc s2, Resolved src dst s sloc s1 dloc s2 ∧
      let v := s1.locRead sloc
      exec (.mov src dst) s = .next ((s2.locWrite dloc v).setFlags
        { n := v.getLsbD 15, z := decide (v.toNat = 0), v := false, c := s.flags.c })

/-- ADD (44_two_operand.md section 2): encoding; the sum modulo 65536 in the destination; V when the signed sum does
not fit, C when the unsigned sum does not. The flag formulas are the spec's D17, the field D11, the order D12. -/
def Obligations.AddSums : Prop :=
  EncodedF2 10 .add ∧
  ∀ (src dst : Operand) (s : State), extensionsFetchable [src, dst] s.pc = true →
    ∃ sloc s1 dloc s2, Resolved src dst s sloc s1 dloc s2 ∧
      let v := s1.locRead sloc
      let d := s2.locRead dloc
      exec (.add src dst) s = .next ((s2.locWrite dloc (d + v)).setFlags
        { n := (d + v).getLsbD 15, z := decide ((d.toNat + v.toNat) % 65536 = 0)
          v := outOfRange (d.toInt + v.toInt), c := decide (65536 ≤ d.toNat + v.toNat) })

/-- SUB and CMP (44_two_operand.md section 2): encodings; SUB puts destination minus source in the destination, CMP
writes nothing and subtracts the other way round; V when the signed difference does not fit, C is the borrow. The
flag formulas are the spec's D17, the field D11, the order D12. -/
def Obligations.SubCmpDifferences : Prop :=
  EncodedF2 11 .sub ∧ EncodedF2 12 .cmp ∧
  ∀ (src dst : Operand) (s : State), extensionsFetchable [src, dst] s.pc = true →
    ∃ sloc s1 dloc s2, Resolved src dst s sloc s1 dloc s2 ∧
      let v := s1.locRead sloc
      let d := s2.locRead dloc
      exec (.sub src dst) s = .next ((s2.locWrite dloc (d - v)).setFlags
        { n := (d - v).getLsbD 15, z := decide (d = v)
          v := outOfRange (d.toInt - v.toInt), c := decide (d.toNat < v.toNat) }) ∧
      exec (.cmp src dst) s = .next (s2.setFlags
        { n := (v - d).getLsbD 15, z := decide (v = d)
          v := outOfRange (v.toInt - d.toInt), c := decide (v.toNat < d.toNat) })

/-- AND and OR (44_two_operand.md section 2): encodings; bitwise results; V cleared, C unchanged (the spec's D16; the
field is D11, the order D12). -/
def Obligations.AndOrCombineBits : Prop :=
  EncodedF2 13 .and ∧ EncodedF2 14 .or ∧
  ∀ (src dst : Operand) (s : State), extensionsFetchable [src, dst] s.pc = true →
    ∃ sloc s1 dloc s2, Resolved src dst s sloc s1 dloc s2 ∧
      let v := s1.locRead sloc
      let d := s2.locRead dloc
      exec (.and src dst) s = .next ((s2.locWrite dloc (d &&& v)).setFlags
        { n := d.getLsbD 15 && v.getLsbD 15, z := decide ((d &&& v).toNat = 0), v := false, c := s.flags.c }) ∧
      exec (.or src dst) s = .next ((s2.locWrite dloc (d ||| v)).setFlags
        { n := d.getLsbD 15 || v.getLsbD 15, z := decide (d = 0 ∧ v = 0), v := false, c := s.flags.c })

/-! ## One-operand instructions -/

/-- CLR, NOT, TST (45_one_operand.md R131, R132, R136): encodings; 0, the complement, the operand itself; CLR's flags
0100, NOT clears V and sets C, TST clears both. -/
def Obligations.ClrNotTst : Prop :=
  EncodedF1 0x80 .clr ∧ EncodedF1 0x81 .not ∧ EncodedF1 0x85 .tst ∧
  ∀ (o : Operand) (s : State), o.fetchable s.pc = true →
    ∃ loc s1, resolve o s = .ok (loc, s1) ∧
      let v := s1.locRead loc
      exec (.clr o) s = .next ((s1.locWrite loc 0).setFlags { n := false, z := true, v := false, c := false }) ∧
      exec (.not o) s = .next ((s1.locWrite loc (0xFFFF - v)).setFlags
        { n := !v.getLsbD 15, z := decide (v = 0xFFFF), v := false, c := true }) ∧
      exec (.tst o) s = .next ((s1.locWrite loc v).setFlags
        { n := v.getLsbD 15, z := decide (v = 0), v := false, c := false })

/-- INC and DEC (45_one_operand.md section 2): encodings; INC's C only for FFFFh and V only for 7FFFh, DEC's C only for
0000h and V only for 8000h. The flag formulas are the spec's D17. -/
def Obligations.IncDec : Prop :=
  EncodedF1 0x82 .inc ∧ EncodedF1 0x83 .dec ∧
  ∀ (o : Operand) (s : State), o.fetchable s.pc = true →
    ∃ loc s1, resolve o s = .ok (loc, s1) ∧
      let v := s1.locRead loc
      exec (.inc o) s = .next ((s1.locWrite loc (v + 1)).setFlags
        { n := (v + 1).getLsbD 15, z := decide (v = 0xFFFF), v := decide (v = 0x7FFF), c := decide (v = 0xFFFF) }) ∧
      exec (.dec o) s = .next ((s1.locWrite loc (v - 1)).setFlags
        { n := (v - 1).getLsbD 15, z := decide (v = 1), v := decide (v = 0x8000), c := decide (v = 0) })

/-- NEG (45_one_operand.md section 2): the two's complement; C for every operand but 0000h, V only for 8000h. That C
is the borrow of 0 minus the operand is the spec's reading (D17). -/
def Obligations.NegComplements : Prop :=
  EncodedF1 0x84 .neg ∧
  ∀ (o : Operand) (s : State), o.fetchable s.pc = true →
    ∃ loc s1, resolve o s = .ok (loc, s1) ∧
      let v := s1.locRead loc
      exec (.neg o) s = .next ((s1.locWrite loc (-v)).setFlags
        { n := (-v).getLsbD 15, z := decide (v = 0), v := decide (v = 0x8000), c := decide (v ≠ 0) })

/-- ROR and ROL (45_one_operand.md R137, R138): encodings; the 17-bit rotation of C and the operand by one bit; V is
the new N XOR the new C. -/
def Obligations.RotateThroughCarry : Prop :=
  EncodedF1 0x86 .ror ∧ EncodedF1 0x87 .rol ∧
  ∀ (o : Operand) (s : State), o.fetchable s.pc = true →
    ∃ loc s1, resolve o s = .ok (loc, s1) ∧
      let v := s1.locRead loc
      let c := s.flags.c
      let right := (v >>> 1) ||| (if c then 0x8000 else 0)
      let left := (v <<< 1) ||| (if c then 1 else 0)
      exec (.ror o) s = .next ((s1.locWrite loc right).setFlags
        { n := c, z := decide (right = 0), v := c ^^ v.getLsbD 0, c := v.getLsbD 0 }) ∧
      exec (.rol o) s = .next ((s1.locWrite loc left).setFlags
        { n := v.getLsbD 14, z := decide (left = 0), v := v.getLsbD 14 ^^ v.getLsbD 15, c := v.getLsbD 15 })

/-- ASR and ASL (45_one_operand.md section 2; the bits that enter are D19): ASR is the signed operand divided by 2
toward minus infinity with C the bit shifted out; ASL is twice the operand modulo 65536, and its V is set exactly
when the signed double does not fit. -/
def Obligations.ArithmeticShifts : Prop :=
  EncodedF1 0x88 .asr ∧ EncodedF1 0x89 .asl ∧
  ∀ (o : Operand) (s : State), o.fetchable s.pc = true →
    ∃ loc s1, resolve o s = .ok (loc, s1) ∧
      let v := s1.locRead loc
      let half := BitVec.ofInt 16 (v.toInt / 2)
      exec (.asr o) s = .next ((s1.locWrite loc half).setFlags
        { n := v.getLsbD 15, z := decide (half = 0), v := v.getLsbD 15 ^^ v.getLsbD 0, c := v.getLsbD 0 }) ∧
      exec (.asl o) s = .next ((s1.locWrite loc (v + v)).setFlags
        { n := v.getLsbD 14, z := decide (v + v = 0), v := outOfRange (2 * v.toInt), c := v.getLsbD 15 })

/-- ADC (45_one_operand.md section 2): encoding; the old C added; with C clear the operand stays, C stays 0 and V is 0.
The flag formulas are the spec's D17. -/
def Obligations.AdcAddsCarry : Prop :=
  EncodedF1 0x8A .adc ∧
  ∀ (o : Operand) (s : State), o.fetchable s.pc = true →
    ∃ loc s1, resolve o s = .ok (loc, s1) ∧
      let v := s1.locRead loc
      let res := if s.flags.c then v + 1 else v
      exec (.adc o) s = .next ((s1.locWrite loc res).setFlags
        { n := res.getLsbD 15, z := decide (res = 0)
          v := s.flags.c && decide (v = 0x7FFF), c := s.flags.c && decide (v = 0xFFFF) })

/-- SBC (45_one_operand.md section 2): the old C subtracted; C by the parameter SBC_C_MODE, for both of its values
(D18, log entry 16): the borrow happens only for 0000h with the old C set. -/
def Obligations.SbcSubtractsCarry : Prop :=
  EncodedF1 0x8B .sbc ∧
  ∀ (o : Operand) (s : State), o.fetchable s.pc = true →
    ∃ loc s1, resolve o s = .ok (loc, s1) ∧
      let v := s1.locRead loc
      let res := if s.flags.c then v - 1 else v
      let borrow := s.flags.c && decide (v = 0)
      exec (.sbc o) s = .next ((s1.locWrite loc res).setFlags
        { n := res.getLsbD 15, z := decide (res = 0), v := s.flags.c && decide (v = 0x8000)
          c := if s.config.sbcCMode = .carryOut then !borrow else borrow })

/-! ## Frames (10_state.md section 3, and the "Registers and memory" lines of the instruction files) -/

/-- What NOP, HLT, CCC and SCC leave unchanged: every register but R7 and every byte of memory, and the flags they do
not write. -/
def Obligations.GeneralFrame : Prop :=
  ∀ (i : Instr) (s t : State), isGeneral i = true → exec i s = .next t → Frame i s t ∧ t.regs = s.regs

/-- What the branches, JMP, SOB, JSR and RTS leave unchanged: no flag is written, JSR alone stores, at R6 minus 2 after
its target is resolved. -/
def Obligations.ControlFlowFrame : Prop :=
  ∀ (i : Instr) (s t : State), isControlFlow i = true → exec i s = .next t → Frame i s t

/-- What the one-operand instructions leave unchanged; TST, though it writes back, changes no byte and no register
but the one its mode steps. -/
def Obligations.OneOperandFrame : Prop :=
  ∀ (i : Instr) (s t : State), isOneOperand i = true → exec i s = .next t → Frame i s t

/-- What the two-operand instructions leave unchanged; the store goes to the destination as resolved after the
source, and CMP stores nothing. -/
def Obligations.TwoOperandFrame : Prop :=
  ∀ (i : Instr) (s t : State), isTwoOperand i = true → exec i s = .next t → Frame i s t

/-! ## Stops -/

/-- The forms without an operation: the five unassigned first bytes (30_encoding.md section 5, D21), run by `exec`
and met by a step, and JMP and JSR on a register (43_control_flow.md section 3, D15). That a reserved byte at FFBFh
refuses as such, its second byte not fetched, is log entry 11. -/
def Obligations.UndefinedFormsRefuse : Prop :=
  (∀ s : State, exec .reserved3F s = .refused (.reservedOpcode 0x3F) ∧
    exec .reserved8C s = .refused (.reservedOpcode 0x8C) ∧ exec .reserved8D s = .refused (.reservedOpcode 0x8D) ∧
    exec .reserved8E s = .refused (.reservedOpcode 0x8E) ∧ exec .reserved8F s = .refused (.reservedOpcode 0x8F)) ∧
  (∀ s : State, Fetches s → s.pc.toNat < 0xFFC0 → s.byte s.pc ∈ reservedBytes →
    step s = .refused (.reservedOpcode (s.byte s.pc))) ∧
  ∀ (s : State) (r l : Reg), exec (.jmp ⟨.register, r⟩) s = .refused (.noAddress "JMP") ∧
    exec (.jsr l ⟨.register, r⟩) s = .refused (.noAddress "JSR")

/-- An instruction byte is not fetched at or above FFC0h, the first or the second (30_encoding.md section 3, D7). -/
def Obligations.FetchInByteAreaRefuses : Prop :=
  (∀ s : State, Fetches s → 0xFFC0 ≤ s.pc.toNat → step s = .refused (.fetchFromByteArea s.pc)) ∧
  ∀ s : State, Fetches s → s.pc = 0xFFBF → hasSecondByte (s.byte s.pc) = true →
    step s = .refused (.fetchFromByteArea 0xFFC0)

/-- An instruction answers a next state exactly when the card gives it an operation and the extension words of its
operands lie below the 8-bit area; there is no other ground for a stop (30_encoding.md sections 3 and 5;
40_addressing_modes.md section 5; 60_exceptions.md section 1; D7, D15, D21, D24). That the spec's optional refusals,
some of which it recommends (D7, D10, D39), are not taken is the model's choice (log entries 12, 13, 14 and 15). -/
def Obligations.ExecCompletesExactly : Prop :=
  ∀ (i : Instr) (s : State),
    (∃ t, exec i s = .next t) ↔ (i.wellFormed = true ∧ extensionsFetchable i.operands s.pc = true)

/-- No step faults, and a step that refuses does so for one of three reasons of the closed list (00_scope.md section 7;
60_exceptions.md section 1; D7, D15, D21, D24). That StraddlesByteArea, UnvalidatedRegister, UnvalidatedDisplacement
and Unvalidated, which the list also has, never occur is the model's choice (log entries 12, 13, 14 and 15). -/
def Obligations.StopsAreTheClosedList : Prop :=
  ∀ s : State, (∀ e, step s ≠ .fault e) ∧
    ∀ e, step s = .refused e →
      (∃ b ∈ reservedBytes, e = .reservedOpcode b) ∨ e = .noAddress "JMP" ∨ e = .noAddress "JSR" ∨
        ∃ a : Word, 0xFFBF ≤ a.toNat ∧ e = .fetchFromByteArea a

/-! ## Steps, interrupts and devices -/

/-- A step that fetches runs the instruction its bytes decode to, with R7 past its one or two bytes and the
move spent (30_encoding.md section 3, D8; the schedule of moves is log entry 2). -/
def Obligations.StepRunsDecodedInstr : Prop :=
  ∀ (s : State) (i : Instr) (rest : List Byte), Fetches s → decode (bytesAtPc s) = .ok (i, rest) →
    s.pc.toNat + (encode i).length ≤ 0xFFC0 →
    step s = exec i (s.afterSchedule.setPc (s.pc + BitVec.ofNat 16 (encode i).length))

/-- An interrupt is taken exactly on the machine with interrupts, with IE set, IP clear and an enabled source pending;
without one (also inside a service routine, where IP is set, and with nothing pending) the processor's turn fetches,
and halted it changes nothing (60_exceptions.md section 2; 00_scope.md section 2; D1, D25). That the turn of a halted
processor passes without effect is log entry 5. -/
def Obligations.InterruptTakenExactlyWhen : Prop :=
  (∀ s : State, s.takesInterrupt = true ↔
    s.config.hasInterrupts = true ∧ (s.byte 0xFFD9).getLsbD 7 = true ∧ (s.byte 0xFFD8).getLsbD 7 = false ∧
      (((s.byte 0xFFD9).getLsbD 1 = true ∧ (s.byte 0xFFD8).getLsbD 1 = true) ∨
        ((s.byte 0xFFD9).getLsbD 0 = true ∧ (s.byte 0xFFD8).getLsbD 0 = true))) ∧
  (∀ s : State, s.processorMoves → s.halted = false → s.takesInterrupt = false →
    step s = runInstr s.afterSchedule) ∧
  ∀ s : State, s.processorMoves → s.halted = true → step s = .next s.afterSchedule

/-- Interrupt entry: R7 stored at R6 minus 2 as `OpWrite` stores it (a word below FFC0h, the low byte alone at or above
it), R6 down by 2, IP set, R7 loaded from IVET; flags, the other registers and every other byte stay, and no second
entry follows at once (60_exceptions.md section 2; D6, D14, D26; at FFBFh log entry 12). -/
def Obligations.InterruptEntryEffect : Prop :=
  ∀ s : State, s.processorMoves → s.halted = false → s.takesInterrupt = true →
    ∃ t, step s = .next t ∧
      let a := s.sp - 2
      let pushed := s.opWrite a s.pc
      t.sp = a ∧
      t.pc = pushed.byte 0xFFBE ++ pushed.byte 0xFFBF ∧
      (a.toNat < 0xFFBD ∨ 0xFFC0 ≤ a.toNat → t.pc = s.ivet) ∧
      (a.toNat < 0xFFC0 → t.opRead a = s.pc) ∧
      (0xFFC0 ≤ a.toNat → a ≠ 0xFFD8 → t.byte a = s.pc.extractLsb' 0 8) ∧
      t.ints = pushed.ints ||| 0x80 ∧
      (∀ b, b ≠ 0xFFD8 → t.byte b = pushed.byte b) ∧
      (∀ b, b ≠ 0xFFD8 → b ∉ storedAddresses a → t.byte b = s.byte b) ∧
      (∀ r, r ≠ .r6 → r ≠ .r7 → t.reg r = s.reg r) ∧
      t.flags = s.flags ∧ t.halted = false ∧ t.takesInterrupt = false

/-- A service routine that leaves R6 and the stack word as the entry left them returns by RTS R7 to the instruction
the entry came before, with R6 as it was; RTS touches no flag, no other register and no byte, INTS and INTE included
(60_exceptions.md section 2; D26, D27). -/
def Obligations.InterruptThenReturn : Prop :=
  ∀ s t u : State, s.processorMoves → s.halted = false → s.takesInterrupt = true → (s.sp - 2).toNat < 0xFFC0 →
    step s = .next t → u.sp = t.sp → u.opRead t.sp = t.opRead t.sp →
    ∃ w, exec (.rts .r7) u = .next w ∧ w.pc = s.pc ∧ w.sp = s.sp ∧
      (∀ r, r ≠ .r6 → r ≠ .r7 → w.reg r = u.reg r) ∧ w.mem = u.mem ∧ w.flags = u.flags

/-- The turns of the devices: the timer sets INTS bit 0; a key puts its code in TECDT, 80h in TECST and sets INTS bit
1; nothing else changes, halted or not (60_exceptions.md section 4; D29, D30). That FFD8h is left alone without
interrupts is log entry 4; that a turn the parameters do not allow passes without effect is log entry 3; whose turn it
is, in any order and without end, is the schedule of log entry 2. -/
def Obligations.DeviceTurns : Prop :=
  (∀ s : State, s.schedule.head = .timer →
    ∃ t, step s = .next t ∧ t.regs = s.regs ∧ t.flags = s.flags ∧ t.halted = s.halted ∧ t.config = s.config ∧
      t.schedule = s.schedule.tail ∧
      ∀ a, t.byte a =
        if a = 0xFFD8 ∧ s.config.hasInterrupts = true ∧
            (s.config.timerMayFire = .always ∨ s.byte 0xFFD7 ≠ 0)
          then s.byte a ||| 0x01 else s.byte a) ∧
  ∀ (s : State) (k : Byte), s.schedule.head = .key k →
    ∃ t, step s = .next t ∧ t.regs = s.regs ∧ t.flags = s.flags ∧ t.halted = s.halted ∧ t.config = s.config ∧
      t.schedule = s.schedule.tail ∧
      ((s.config.keySet = .all ∨ ∃ l, s.config.keySet = .only l ∧ k ∈ l) →
        t.byte 0xFFDB = k ∧ t.byte 0xFFDA = 0x80 ∧
        t.byte 0xFFD8 = (if s.config.hasInterrupts then s.byte 0xFFD8 ||| 0x02 else s.byte 0xFFD8) ∧
        ∀ a, a ≠ 0xFFDB → a ≠ 0xFFDA → a ≠ 0xFFD8 → t.byte a = s.byte a) ∧
      (∀ l, s.config.keySet = .only l → k ∉ l → ∀ a, t.byte a = s.byte a)

/-- A step never changes the parameters and spends one move of the schedule: the first of those listed, or the next of
the free sequence, which never ends; where only the processor moves that stays so (log entries 1 and 2). -/
def Obligations.StepKeepsConfig : Prop :=
  ∀ s t : State, step s = .next t →
    t.config = s.config ∧
    (∀ m rest, s.schedule = .move m rest → t.schedule = rest) ∧
    (∀ n, s.schedule = .free n → t.schedule = .free (n + 1)) ∧
    (s.schedule = .processorOnly → t.schedule = .processorOnly)

/-- A halted machine stays halted, and a step sets `halted` only by running an HLT (10_state.md section 7;
41_general.md; D23). -/
def Obligations.OnlyHltHalts : Prop :=
  ∀ s t : State, step s = .next t →
    (s.halted = true → t.halted = true) ∧
    (s.halted = false → t.halted = true → s.processorMoves ∧ highNibble (s.byte s.pc) = 15)

/-- An instruction of the opcode table placed by `withFetchWord` is the one the next step runs, wherever its six
bytes lie below the 8-bit area; the six bytes are those of the row, the words above its bits included; the registers,
the flags, the parameters and the moves that come after are as before, and no byte outside the six but INTE is changed
(log entries 8 and 10). -/
def Obligations.PlacedInstrRuns : Prop :=
  ∀ (s : State) (nbits w : Nat) (i : Instr), s.pc.toNat ≤ 0xFFBA → decodeTableWord nbits w = some i →
    ∃ u, step (s.withFetchWord nbits w) = exec i u ∧
      u.pc = s.pc + BitVec.ofNat 16 (encode i).length ∧ (∀ r, r ≠ .r7 → u.reg r = s.reg r) ∧
      u.flags = s.flags ∧ u.config = s.config ∧ u.halted = false ∧ u.schedule = s.schedule ∧
      (∀ k, k < 6 → (tableBytes nbits w)[k]? = some (u.byte (s.pc + BitVec.ofNat 16 k))) ∧
      ∀ a : Word, (a.toNat < s.pc.toNat ∨ s.pc.toNat + 6 ≤ a.toNat) → a ≠ 0xFFD9 → u.byte a = s.byte a
end

