-- ==== Sys2Proof/Laws/State.lean ====
section
/-! SUPPORT. The field lemmas of the state: one per field per update, so that no proof unfolds a record update. -/

namespace Sys2Proof.Machine

/-! ## Register file -/

@[simp] theorem Regs.get_set_same (g : Regs) (r : Reg) (w : Word) : (g.set r w).get r = w := by
  cases r <;> rfl

@[simp] theorem Regs.get_set_ne (g : Regs) {r q : Reg} (w : Word) (h : q ≠ r) :
    (g.set r w).get q = g.get q := by
  cases r <;> cases q <;> first | rfl | exact absurd rfl h

/-- Two register files that read the same are the same. -/
theorem Regs.ext_get {g g' : Regs} (h : ∀ r, g.get r = g'.get r) : g = g' := by
  have h0 := h .r0; have h1 := h .r1; have h2 := h .r2; have h3 := h .r3
  have h4 := h .r4; have h5 := h .r5; have h6 := h .r6; have h7 := h .r7
  cases g; cases g'
  simp only [Regs.get] at h0 h1 h2 h3 h4 h5 h6 h7
  simp [h0, h1, h2, h3, h4, h5, h6, h7]

/-! ## `setReg` and `setPc` -/

@[simp] theorem State.reg_setReg_same (s : State) (r : Reg) (w : Word) : (s.setReg r w).reg r = w :=
  Regs.get_set_same s.regs r w

@[simp] theorem State.reg_setReg_ne (s : State) {r q : Reg} (w : Word) (h : q ≠ r) :
    (s.setReg r w).reg q = s.reg q := Regs.get_set_ne s.regs w h

/-- What a register reads after any register is written. -/
theorem State.reg_setReg (s : State) (r q : Reg) (w : Word) :
    (s.setReg r w).reg q = if q = r then w else s.reg q := by
  by_cases h : q = r
  · subst h; simp
  · simp [h]

@[simp] theorem State.setReg_flags (s : State) (r : Reg) (w : Word) : (s.setReg r w).flags = s.flags := rfl
@[simp] theorem State.setReg_mem (s : State) (r : Reg) (w : Word) : (s.setReg r w).mem = s.mem := rfl
@[simp] theorem State.setReg_halted (s : State) (r : Reg) (w : Word) : (s.setReg r w).halted = s.halted := rfl
@[simp] theorem State.setReg_config (s : State) (r : Reg) (w : Word) : (s.setReg r w).config = s.config := rfl
@[simp] theorem State.setReg_schedule (s : State) (r : Reg) (w : Word) :
    (s.setReg r w).schedule = s.schedule := rfl
@[simp] theorem State.setReg_byte (s : State) (r : Reg) (w a : Word) : (s.setReg r w).byte a = s.byte a := rfl
@[simp] theorem State.setReg_memWord (s : State) (r : Reg) (w a : Word) :
    (s.setReg r w).memWord a = s.memWord a := rfl
@[simp] theorem State.setReg_opRead (s : State) (r : Reg) (w a : Word) :
    (s.setReg r w).opRead a = s.opRead a := rfl

theorem State.pc_eq (s : State) : s.pc = s.reg .r7 := rfl
theorem State.sp_eq (s : State) : s.sp = s.reg .r6 := rfl
theorem State.setPc_eq (s : State) (w : Word) : s.setPc w = s.setReg .r7 w := rfl

@[simp] theorem State.pc_setPc (s : State) (w : Word) : (s.setPc w).pc = w := State.reg_setReg_same s .r7 w
@[simp] theorem State.reg_setPc_ne (s : State) {q : Reg} (w : Word) (h : q ≠ .r7) :
    (s.setPc w).reg q = s.reg q := State.reg_setReg_ne s w h
@[simp] theorem State.pc_setReg_ne (s : State) {r : Reg} (w : Word) (h : Reg.r7 ≠ r) :
    (s.setReg r w).pc = s.pc := State.reg_setReg_ne s w h
@[simp] theorem State.setPc_flags (s : State) (w : Word) : (s.setPc w).flags = s.flags := rfl
@[simp] theorem State.setPc_mem (s : State) (w : Word) : (s.setPc w).mem = s.mem := rfl
@[simp] theorem State.setPc_halted (s : State) (w : Word) : (s.setPc w).halted = s.halted := rfl
@[simp] theorem State.setPc_config (s : State) (w : Word) : (s.setPc w).config = s.config := rfl
@[simp] theorem State.setPc_schedule (s : State) (w : Word) : (s.setPc w).schedule = s.schedule := rfl
@[simp] theorem State.setPc_byte (s : State) (w a : Word) : (s.setPc w).byte a = s.byte a := rfl
@[simp] theorem State.setPc_memWord (s : State) (w a : Word) : (s.setPc w).memWord a = s.memWord a := rfl
@[simp] theorem State.setPc_opRead (s : State) (w a : Word) : (s.setPc w).opRead a = s.opRead a := rfl

/-! ## `setFlags` and `halt` -/

@[simp] theorem State.setFlags_flags (s : State) (f : Flags) : (s.setFlags f).flags = f := rfl
@[simp] theorem State.setFlags_regs (s : State) (f : Flags) : (s.setFlags f).regs = s.regs := rfl
@[simp] theorem State.setFlags_reg (s : State) (f : Flags) (r : Reg) : (s.setFlags f).reg r = s.reg r := rfl
@[simp] theorem State.setFlags_pc (s : State) (f : Flags) : (s.setFlags f).pc = s.pc := rfl
@[simp] theorem State.setFlags_mem (s : State) (f : Flags) : (s.setFlags f).mem = s.mem := rfl
@[simp] theorem State.setFlags_halted (s : State) (f : Flags) : (s.setFlags f).halted = s.halted := rfl
@[simp] theorem State.setFlags_config (s : State) (f : Flags) : (s.setFlags f).config = s.config := rfl
@[simp] theorem State.setFlags_schedule (s : State) (f : Flags) : (s.setFlags f).schedule = s.schedule := rfl
@[simp] theorem State.setFlags_byte (s : State) (f : Flags) (a : Word) :
    (s.setFlags f).byte a = s.byte a := rfl
@[simp] theorem State.setFlags_opRead (s : State) (f : Flags) (a : Word) :
    (s.setFlags f).opRead a = s.opRead a := rfl

@[simp] theorem State.halt_halted (s : State) : s.halt.halted = true := rfl
@[simp] theorem State.halt_regs (s : State) : s.halt.regs = s.regs := rfl
@[simp] theorem State.halt_reg (s : State) (r : Reg) : s.halt.reg r = s.reg r := rfl
@[simp] theorem State.halt_flags (s : State) : s.halt.flags = s.flags := rfl
@[simp] theorem State.halt_mem (s : State) : s.halt.mem = s.mem := rfl
@[simp] theorem State.halt_config (s : State) : s.halt.config = s.config := rfl
@[simp] theorem State.halt_schedule (s : State) : s.halt.schedule = s.schedule := rfl
@[simp] theorem State.halt_byte (s : State) (a : Word) : s.halt.byte a = s.byte a := rfl

/-! ## `setByte` -/

@[simp] theorem State.setByte_regs (s : State) (a : Word) (b : Byte) : (s.setByte a b).regs = s.regs := rfl
@[simp] theorem State.setByte_reg (s : State) (a : Word) (b : Byte) (r : Reg) :
    (s.setByte a b).reg r = s.reg r := rfl
@[simp] theorem State.setByte_pc (s : State) (a : Word) (b : Byte) : (s.setByte a b).pc = s.pc := rfl
@[simp] theorem State.setByte_flags (s : State) (a : Word) (b : Byte) : (s.setByte a b).flags = s.flags := rfl
@[simp] theorem State.setByte_mem (s : State) (a : Word) (b : Byte) :
    (s.setByte a b).mem = s.mem.write a b := rfl
@[simp] theorem State.setByte_halted (s : State) (a : Word) (b : Byte) :
    (s.setByte a b).halted = s.halted := rfl
@[simp] theorem State.setByte_config (s : State) (a : Word) (b : Byte) :
    (s.setByte a b).config = s.config := rfl
@[simp] theorem State.setByte_schedule (s : State) (a : Word) (b : Byte) :
    (s.setByte a b).schedule = s.schedule := rfl

/-! ## A schedule replaced -/

@[simp] theorem State.withSchedule_reg (s : State) (l : Schedule) (r : Reg) :
    ({ s with schedule := l } : State).reg r = s.reg r := rfl
@[simp] theorem State.withSchedule_byte (s : State) (l : Schedule) (a : Word) :
    ({ s with schedule := l } : State).byte a = s.byte a := rfl
@[simp] theorem State.withSchedule_irq (s : State) (l : Schedule) :
    ({ s with schedule := l } : State).irq = s.irq := rfl

end Sys2Proof.Machine
end

