-- ==== Sys2Proof/Laws/Memory.lean ====
section
/-! SUPPORT. Memory: read after write, and every write keeps the canonical form. -/

namespace Sys2Proof.Machine

/-! ## Lists of cells -/

theorem lookup_insertCell_same (l : List Host.Cell) (a : Nat) (b : Byte) (h : ∀ c ∈ l, c.1 ≠ a) :
    lookup (insertCell l (a, b)) a = b := by
  induction l with
  | nil => simp [insertCell, lookup]
  | cons c l ih =>
    have hc : c.1 ≠ a := h c (by simp)
    have ih' := ih (fun d hd => h d (by simp [hd]))
    by_cases hlt : a < c.1 <;> simp [insertCell, lookup, hlt, hc, ih']

theorem lookup_insertCell_other (l : List Host.Cell) (a a' : Nat) (b : Byte) (h : a' ≠ a) :
    lookup (insertCell l (a, b)) a' = lookup l a' := by
  induction l with
  | nil => simp [insertCell, lookup, Ne.symm h]
  | cons c l ih =>
    by_cases hlt : a < c.1
    · simp [insertCell, lookup, hlt, Ne.symm h]
    · simp [insertCell, lookup, hlt, ih]

theorem lookup_filter_same (l : List Host.Cell) (a : Nat) :
    lookup (l.filter (fun c => c.1 != a)) a = initialByte a := by
  induction l with
  | nil => rfl
  | cons c l ih =>
    by_cases hc : c.1 = a
    · simp [hc, ih]
    · simp [hc, lookup, ih]

theorem lookup_filter_other (l : List Host.Cell) (a a' : Nat) (h : a' ≠ a) :
    lookup (l.filter (fun c => c.1 != a)) a' = lookup l a' := by
  induction l with
  | nil => rfl
  | cons c l ih =>
    by_cases hc : c.1 = a
    · have hne : c.1 ≠ a' := fun e => h (e ▸ hc)
      have hne' : ¬ a = a' := fun e => h e.symm
      simp [hc, lookup, ih, hne']
    · simp [hc, lookup, ih]

theorem mem_insertCell {l : List Host.Cell} {new c : Host.Cell} (h : c ∈ insertCell l new) :
    c = new ∨ c ∈ l := by
  induction l with
  | nil => simpa [insertCell] using h
  | cons d l ih =>
    by_cases hlt : new.1 < d.1
    · simpa [insertCell, hlt] using h
    · simp only [insertCell, hlt, if_false, List.mem_cons] at h
      rcases h with rfl | h
      · simp
      · rcases ih h with h | h <;> simp [h]

theorem pairwise_insertCell {l : List Host.Cell} {new : Host.Cell}
    (hl : l.Pairwise (fun x y => x.1 < y.1)) (hn : ∀ c ∈ l, c.1 ≠ new.1) :
    (insertCell l new).Pairwise (fun x y => x.1 < y.1) := by
  induction l with
  | nil => simp [insertCell]
  | cons d l ih =>
    rw [List.pairwise_cons] at hl
    have hd : d.1 ≠ new.1 := hn d (by simp)
    by_cases hlt : new.1 < d.1
    · simp only [insertCell, hlt, if_true, List.pairwise_cons]
      refine ⟨?_, hl⟩
      intro c hc
      rcases List.mem_cons.mp hc with rfl | hc
      · exact hlt
      · exact Nat.lt_trans hlt (hl.1 c hc)
    · simp only [insertCell, hlt, if_false, List.pairwise_cons]
      refine ⟨?_, ih hl.2 (fun c hc => hn c (by simp [hc]))⟩
      intro c hc
      rcases mem_insertCell hc with rfl | hc
      · omega
      · exact hl.1 c hc

/-! ## Memory -/

/-- A byte written is the byte read (R24, R37). -/
@[simp] theorem Memory.read_write_same (m : Memory) (a : Word) (b : Byte) : (m.write a b).read a = b := by
  unfold Memory.write Memory.read
  by_cases h : b = initialByte a.toNat
  · simp [h, lookup_filter_same]
  · simp only [h, if_false]
    exact lookup_insertCell_same _ _ _ (by simp)

/-- A write leaves every other byte alone (R24). -/
@[simp] theorem Memory.read_write_other (m : Memory) {a a' : Word} (b : Byte) (h : a' ≠ a) :
    (m.write a b).read a' = m.read a' := by
  have hn : a'.toNat ≠ a.toNat := fun e => h (BitVec.eq_of_toNat_eq e)
  unfold Memory.write Memory.read
  by_cases hb : b = initialByte a.toNat
  · simp [hb, lookup_filter_other _ _ _ hn]
  · simp only [hb, if_false]
    rw [lookup_insertCell_other _ _ _ _ hn, lookup_filter_other _ _ _ hn]

/-- A write keeps the canonical form. -/
theorem Memory.wf_write {m : Memory} (h : m.wf) (a : Word) (b : Byte) : (m.write a b).wf := by
  obtain ⟨hp, hc⟩ := h
  have hp' : (m.cells.filter (fun c => c.1 != a.toNat)).Pairwise (fun x y => x.1 < y.1) := hp.filter _
  unfold Memory.write
  by_cases hb : b = initialByte a.toNat
  · simp only [hb, if_true]
    exact ⟨hp', fun c hmem => hc c (List.mem_of_mem_filter hmem)⟩
  · simp only [hb, if_false]
    refine ⟨pairwise_insertCell hp' (by simp), ?_⟩
    intro c hmem
    rcases mem_insertCell hmem with rfl | hmem
    · exact ⟨a.isLt, hb⟩
    · exact hc c (List.mem_of_mem_filter hmem)

/-- The memory after reset has the canonical form. -/
theorem State.reset_mem_wf : State.reset.mem.wf := by decide

/-- What a byte reads after any byte is written. -/
theorem State.byte_setByte (s : State) (a a' : Word) (b : Byte) :
    (s.setByte a b).byte a' = if a' = a then b else s.byte a' := by
  by_cases h : a' = a
  · subst h; simp [State.byte]
  · simp [State.byte, h]

@[simp] theorem State.byte_setByte_same (s : State) (a : Word) (b : Byte) : (s.setByte a b).byte a = b :=
  Memory.read_write_same s.mem a b

@[simp] theorem State.byte_setByte_other (s : State) {a a' : Word} (b : Byte) (h : a' ≠ a) :
    (s.setByte a b).byte a' = s.byte a' := Memory.read_write_other s.mem b h

end Sys2Proof.Machine
end

