-- ==== Sys2Proof/Laws/Access.lean ====
section
/-! SUPPORT. What the shared operations over memory, the stack and the instruction stream do: one lemma each, cited
instead of unfolding them. -/

namespace Sys2Proof.Machine

/-- The two bytes of a word lie at different addresses. -/
theorem word_succ_ne (a : Word) : a + 1 ≠ a := by
  intro h
  have := congrArg BitVec.toNat h
  simp [BitVec.toNat_add] at this
  omega

/-! ## `setMemWord` and `opWrite` -/

@[simp] theorem State.setMemWord_regs (s : State) (a v : Word) : (s.setMemWord a v).regs = s.regs := rfl
@[simp] theorem State.setMemWord_reg (s : State) (a v : Word) (r : Reg) :
    (s.setMemWord a v).reg r = s.reg r := rfl
@[simp] theorem State.setMemWord_flags (s : State) (a v : Word) : (s.setMemWord a v).flags = s.flags := rfl
@[simp] theorem State.setMemWord_halted (s : State) (a v : Word) : (s.setMemWord a v).halted = s.halted := rfl
@[simp] theorem State.setMemWord_config (s : State) (a v : Word) : (s.setMemWord a v).config = s.config := rfl
@[simp] theorem State.setMemWord_schedule (s : State) (a v : Word) :
    (s.setMemWord a v).schedule = s.schedule := rfl

/-- The bytes after a word write (R26): the high byte at the lower address. -/
theorem State.byte_setMemWord (s : State) (a v a' : Word) :
    (s.setMemWord a v).byte a' =
      if a' = a + 1 then lowByte v else if a' = a then highByte v else s.byte a' := by
  simp [State.setMemWord, State.byte_setByte]

theorem State.opWrite_eq (s : State) (a v : Word) :
    s.opWrite a v = if inByteArea a then s.setByte a (lowByte v) else s.setMemWord a v := rfl

@[simp] theorem State.opWrite_regs (s : State) (a v : Word) : (s.opWrite a v).regs = s.regs := by
  unfold State.opWrite; split <;> rfl
@[simp] theorem State.opWrite_reg (s : State) (a v : Word) (r : Reg) : (s.opWrite a v).reg r = s.reg r := by
  unfold State.opWrite; split <;> rfl
@[simp] theorem State.opWrite_pc (s : State) (a v : Word) : (s.opWrite a v).pc = s.pc :=
  State.opWrite_reg s a v .r7
@[simp] theorem State.opWrite_flags (s : State) (a v : Word) : (s.opWrite a v).flags = s.flags := by
  unfold State.opWrite; split <;> rfl
@[simp] theorem State.opWrite_halted (s : State) (a v : Word) : (s.opWrite a v).halted = s.halted := by
  unfold State.opWrite; split <;> rfl
@[simp] theorem State.opWrite_config (s : State) (a v : Word) : (s.opWrite a v).config = s.config := by
  unfold State.opWrite; split <;> rfl
@[simp] theorem State.opWrite_schedule (s : State) (a v : Word) : (s.opWrite a v).schedule = s.schedule := by
  unfold State.opWrite; split <;> rfl

/-- `OpWrite` stores the bytes of `storedAddresses` and no other (R30). -/
theorem State.byte_opWrite_other (s : State) {a a' : Word} (v : Word) (h : a' ∉ storedAddresses a) :
    (s.opWrite a v).byte a' = s.byte a' := by
  unfold State.opWrite
  unfold storedAddresses at h
  split at h
  · next hb => simp only [List.mem_singleton] at h; simp [hb, h]
  · next hb =>
    simp only [List.mem_cons, List.not_mem_nil, or_false, not_or] at h
    rw [if_neg hb, State.byte_setMemWord, if_neg h.2, if_neg h.1]

/-- `OpWrite` keeps memory's canonical form. -/
theorem State.wf_opWrite {s : State} (h : s.mem.wf) (a v : Word) : (s.opWrite a v).mem.wf := by
  unfold State.opWrite
  split
  · exact Memory.wf_write h a _
  · exact Memory.wf_write (Memory.wf_write h a _) (a + 1) _

/-! ## Stack -/

@[simp] theorem State.push_flags (s : State) (v : Word) : (s.push v).flags = s.flags := by simp [State.push]
@[simp] theorem State.push_halted (s : State) (v : Word) : (s.push v).halted = s.halted := by simp [State.push]
@[simp] theorem State.push_config (s : State) (v : Word) : (s.push v).config = s.config := by simp [State.push]
@[simp] theorem State.push_schedule (s : State) (v : Word) : (s.push v).schedule = s.schedule := by
  simp [State.push]

/-- The registers after a push: R6 down by 2, the others as before (R101). -/
theorem State.reg_push (s : State) (v : Word) (r : Reg) :
    (s.push v).reg r = if r = .r6 then s.reg .r6 - 2 else s.reg r := by
  simp [State.push, State.reg_setReg]

@[simp] theorem State.pc_push (s : State) (v : Word) : (s.push v).pc = s.pc := by
  simp [State.pc_eq, State.reg_push]

/-- A push is `OpWrite` at R6 minus 2, as far as memory goes (R101). -/
theorem State.mem_push (s : State) (v : Word) : (s.push v).mem = (s.opWrite (s.reg .r6 - 2) v).mem := by
  simp only [State.push, State.reg_setReg_same, State.opWrite]
  split <;> rfl

theorem State.byte_push_other (s : State) {a : Word} (v : Word) (h : a ∉ storedAddresses (s.reg .r6 - 2)) :
    (s.push v).byte a = s.byte a := by
  have := State.byte_opWrite_other s v h
  simpa [State.byte, State.mem_push] using this

theorem State.wf_push {s : State} (h : s.mem.wf) (v : Word) : (s.push v).mem.wf := by
  rw [State.mem_push]; exact State.wf_opWrite h _ _

theorem State.pop_fst (s : State) : s.pop.1 = s.opRead (s.reg .r6) := rfl
theorem State.pop_snd (s : State) : s.pop.2 = s.setReg .r6 (s.reg .r6 + 2) := rfl

/-! ## Interrupt entry and return -/

/-- All that an interrupt entry leaves (R152), in terms of the push of R7. -/
theorem State.interruptEntry_eq (s : State) :
    s.interruptEntry =
      ((s.push s.pc).setByte 0xFFD8 ((s.push s.pc).ints ||| 0x80)).setPc
        ((s.push s.pc).setByte 0xFFD8 ((s.push s.pc).ints ||| 0x80)).ivet := rfl

@[simp] theorem State.interruptEntry_flags (s : State) : s.interruptEntry.flags = s.flags := by
  simp [State.interruptEntry_eq]
@[simp] theorem State.interruptEntry_halted (s : State) : s.interruptEntry.halted = s.halted := by
  simp [State.interruptEntry_eq]
@[simp] theorem State.interruptEntry_config (s : State) : s.interruptEntry.config = s.config := by
  simp [State.interruptEntry_eq]
@[simp] theorem State.interruptEntry_schedule (s : State) : s.interruptEntry.schedule = s.schedule := by
  simp [State.interruptEntry_eq]

theorem State.wf_interruptEntry {s : State} (h : s.mem.wf) : s.interruptEntry.mem.wf := by
  rw [State.interruptEntry_eq]
  exact Memory.wf_write (State.wf_push h _) _ _

/-- All that the operation of RTS does (R120): R7 from the link register, then the link register from the stack. -/
theorem State.returnVia_eq (s : State) (lreg : Reg) :
    s.returnVia lreg =
      (((s.setPc (s.reg lreg)).setReg .r6 ((s.setPc (s.reg lreg)).reg .r6 + 2)).setReg lreg
        (s.opRead ((s.setPc (s.reg lreg)).reg .r6))) := rfl

/-! ## Fetch -/

/-- `FetchByte` refuses at or above FFC0h, and otherwise gives the byte at R7 and moves R7 past it (R55). -/
theorem State.fetchByte_ok {s s1 : State} {b : Byte} (h : s.fetchByte = .ok (b, s1)) :
    s.pc.toNat < 0xFFC0 ∧ b = s.byte s.pc ∧ s1 = s.setPc (s.pc + 1) := by
  unfold State.fetchByte at h
  split at h
  · cases h
  · next hlt => cases h; exact ⟨by omega, rfl, rfl⟩

theorem State.fetchByte_error {s : State} {e : Refusal} (h : s.fetchByte = .error e) :
    0xFFC0 ≤ s.pc.toNat ∧ e = .fetchFromByteArea s.pc := by
  unfold State.fetchByte at h
  split at h
  · next hge => cases h; exact ⟨hge, rfl⟩
  · cases h

/-- `FetchWord` refuses at or above FFBFh, and otherwise gives the word at R7 and moves R7 past it (R56). -/
theorem State.fetchWord_ok {s s1 : State} {w : Word} (h : s.fetchWord = .ok (w, s1)) :
    s.pc.toNat < 0xFFBF ∧ w = s.memWord s.pc ∧ s1 = s.setPc (s.pc + 2) := by
  unfold State.fetchWord at h
  split at h
  · cases h
  · next hlt => cases h; exact ⟨by omega, rfl, rfl⟩

theorem State.fetchWord_error {s : State} {e : Refusal} (h : s.fetchWord = .error e) :
    0xFFBF ≤ s.pc.toNat ∧ e = .fetchFromByteArea s.pc := by
  unfold State.fetchWord at h
  split at h
  · next hge => cases h; exact ⟨hge, rfl⟩
  · cases h

/-- What the fetch of an instruction changes: R7 alone (R57). -/
theorem State.fetchInstr_ok {s s1 : State} {i : Instr} (h : s.fetchInstr = .ok (i, s1)) :
    s1 = s.setPc (s.pc + if hasSecondByte (s.byte s.pc) then 2 else 1) ∧
      i = decodePair (s.byte s.pc) (if hasSecondByte (s.byte s.pc) then s.byte (s.pc + 1) else 0) := by
  unfold State.fetchInstr at h
  split at h
  · cases h
  · next b1 t hb =>
    obtain ⟨-, rfl, rfl⟩ := State.fetchByte_ok hb
    split at h
    · next h2 =>
      split at h
      · cases h
      · next b2 u hb2 =>
        obtain ⟨-, rfl, rfl⟩ := State.fetchByte_ok hb2
        cases h
        refine ⟨?_, by simp [h2]⟩
        rw [if_pos h2, State.pc_setPc, BitVec.add_assoc]
        simp only [State.setPc, State.setReg, Regs.set]
        rfl
    · next h2 => cases h; exact ⟨by simp [h2], by simp [h2]⟩

theorem State.fetchInstr_error {s : State} {e : Refusal} (h : s.fetchInstr = .error e) :
    ∃ a : Word, 0xFFC0 ≤ a.toNat ∧ e = .fetchFromByteArea a := by
  unfold State.fetchInstr at h
  split at h
  · next hb => cases h; exact ⟨_, State.fetchByte_error hb⟩
  · split at h
    · split at h
      · next hb => cases h; exact ⟨_, State.fetchByte_error hb⟩
      · cases h
    · cases h

end Sys2Proof.Machine
end

