-- ==== Sys2Proof/Laws/Devices.lean ====
section
/-! SUPPORT. What the turn of a device does: one lemma per operation, cited instead of unfolding it. -/

namespace Sys2Proof.Machine

/-! ## `raisePending` -/

@[simp] theorem State.raisePending_regs (s : State) (bits : Byte) : (s.raisePending bits).regs = s.regs := by
  unfold State.raisePending; split <;> rfl
@[simp] theorem State.raisePending_flags (s : State) (bits : Byte) : (s.raisePending bits).flags = s.flags := by
  unfold State.raisePending; split <;> rfl
@[simp] theorem State.raisePending_halted (s : State) (bits : Byte) :
    (s.raisePending bits).halted = s.halted := by unfold State.raisePending; split <;> rfl
@[simp] theorem State.raisePending_config (s : State) (bits : Byte) :
    (s.raisePending bits).config = s.config := by unfold State.raisePending; split <;> rfl
@[simp] theorem State.raisePending_schedule (s : State) (bits : Byte) :
    (s.raisePending bits).schedule = s.schedule := by unfold State.raisePending; split <;> rfl

/-- The bytes after a device has raised pending bits: INTS alone, and only with interrupts (R157, R158; R2). -/
theorem State.byte_raisePending (s : State) (bits : Byte) (a : Word) :
    (s.raisePending bits).byte a =
      if a = 0xFFD8 ∧ s.config.hasInterrupts = true then s.byte a ||| bits else s.byte a := by
  unfold State.raisePending
  by_cases hi : s.config.hasInterrupts = true
  · by_cases ha : a = 0xFFD8
    · subst ha; rw [if_pos hi, if_pos ⟨rfl, hi⟩]; exact State.byte_setByte_same _ _ _
    · rw [if_pos hi, if_neg (fun h => ha h.1), State.byte_setByte_other _ _ ha]
  · rw [if_neg hi, if_neg (fun h => hi h.2)]

theorem State.wf_raisePending {s : State} (h : s.mem.wf) (bits : Byte) : (s.raisePending bits).mem.wf := by
  unfold State.raisePending
  split
  · exact Memory.wf_write h _ _
  · exact h

/-! ## The turns -/

/-- The timer may fire always, or while TIMDT is not 00h, by the parameter (R157). -/
theorem State.timerMayFire_iff (s : State) :
    s.timerMayFire = true ↔ s.config.timerMayFire = .always ∨ s.byte 0xFFD7 ≠ 0 := by
  unfold State.timerMayFire
  split
  · next h => simp [h]
  · next h => rw [h]; simp [State.timdt]

/-- The timer's turn writes memory alone. -/
theorem State.timerTurn_keeps (s : State) :
    s.timerTurn.regs = s.regs ∧ s.timerTurn.flags = s.flags ∧ s.timerTurn.halted = s.halted ∧
      s.timerTurn.config = s.config ∧ s.timerTurn.schedule = s.schedule := by
  unfold State.timerTurn State.timerFires
  split <;> simp

/-- The keyboard's turn writes memory alone. -/
theorem State.keyTurn_keeps (s : State) (k : Byte) :
    (s.keyTurn k).regs = s.regs ∧ (s.keyTurn k).flags = s.flags ∧ (s.keyTurn k).halted = s.halted ∧
      (s.keyTurn k).config = s.config ∧ (s.keyTurn k).schedule = s.schedule := by
  unfold State.keyTurn State.keyArrives
  split <;> simp

/-- `KEY_SET` has a code when it has every code or lists it (R158). -/
theorem keySet_holds_iff (ks : KeySet) (k : Byte) :
    ks.holds k = true ↔ ks = .all ∨ ∃ l, ks = .only l ∧ k ∈ l := by
  cases ks <;> simp [KeySet.holds]

theorem State.wf_timerTurn {s : State} (h : s.mem.wf) : s.timerTurn.mem.wf := by
  unfold State.timerTurn
  split
  · exact State.wf_raisePending h _
  · exact h

theorem State.wf_keyTurn {s : State} (h : s.mem.wf) (k : Byte) : (s.keyTurn k).mem.wf := by
  unfold State.keyTurn
  split
  · exact State.wf_raisePending (Memory.wf_write (Memory.wf_write h _ _) _ _) _
  · exact h

end Sys2Proof.Machine
end

