-- ==== Sys2Proof/Laws/Operands.lean ====
section
/-! SUPPORT. What resolving a specifier and the two common sequences do: one lemma each. -/

namespace Sys2Proof.Machine

/-- Resolving writes no memory and no flag: it changes at most the specifier's register and R7 (R73, R86). -/
theorem resolve_ok {o : Operand} {s s1 : State} {loc : Loc} (h : resolve o s = .ok (loc, s1)) :
    s1.mem = s.mem ∧ s1.flags = s.flags ∧ s1.halted = s.halted ∧ s1.config = s.config ∧
      s1.schedule = s.schedule ∧ ∀ r, r ≠ o.reg → r ≠ .r7 → s1.reg r = s.reg r := by
  unfold resolve at h
  split at h
  · cases h; simp
  · cases h; exact ⟨rfl, rfl, rfl, rfl, rfl, fun r h1 _ => by simp [h1]⟩
  · cases h; exact ⟨rfl, rfl, rfl, rfl, rfl, fun r h1 _ => by simp [h1]⟩
  · split at h
    · cases h
    · next hf =>
      obtain ⟨-, -, rfl⟩ := State.fetchWord_ok hf
      cases h; exact ⟨rfl, rfl, rfl, rfl, rfl, fun r _ h2 => by simp [h2]⟩
  · cases h; simp
  · cases h; exact ⟨rfl, rfl, rfl, rfl, rfl, fun r h1 _ => by simp [h1]⟩
  · cases h; exact ⟨rfl, rfl, rfl, rfl, rfl, fun r h1 _ => by simp [h1]⟩
  · split at h
    · cases h
    · next hf =>
      obtain ⟨-, -, rfl⟩ := State.fetchWord_ok hf
      cases h; exact ⟨rfl, rfl, rfl, rfl, rfl, fun r _ h2 => by simp [h2]⟩

/-- The location is a register in mode 000 alone, and then it is the specifier's (R73, R74). -/
theorem resolve_reg {o : Operand} {s s1 : State} {r : Reg} (h : resolve o s = .ok (.reg r, s1)) :
    o.mode = .register ∧ r = o.reg ∧ s1 = s := by
  unfold resolve at h
  split at h <;> first
    | (next hm => cases h; exact ⟨hm, rfl, rfl⟩)
    | cases h
    | (split at h <;> cases h)

/-- The only refusal of a specifier is that of its extension word's fetch (R86). -/
theorem resolve_error {o : Operand} {s : State} {e : Refusal} (h : resolve o s = .error e) :
    o.hasExtension = true ∧ 0xFFBF ≤ s.pc.toNat ∧ e = .fetchFromByteArea s.pc := by
  unfold resolve at h
  unfold Operand.hasExtension
  split at h <;> first
    | cases h
    | (next hm =>
        split at h
        · next hf => cases h; exact ⟨by simp [hm], State.fetchWord_error hf⟩
        · cases h)

/-! ## `locRead` and `locWrite` -/

@[simp] theorem State.locRead_reg (s : State) (r : Reg) : s.locRead (.reg r) = s.reg r := rfl
@[simp] theorem State.locRead_mem (s : State) (a : Word) : s.locRead (.mem a) = s.opRead a := rfl
@[simp] theorem State.locWrite_reg (s : State) (r : Reg) (v : Word) : s.locWrite (.reg r) v = s.setReg r v := rfl
@[simp] theorem State.locWrite_mem (s : State) (a v : Word) : s.locWrite (.mem a) v = s.opWrite a v := rfl

@[simp] theorem State.locWrite_flags (s : State) (loc : Loc) (v : Word) :
    (s.locWrite loc v).flags = s.flags := by cases loc <;> simp
@[simp] theorem State.locWrite_halted (s : State) (loc : Loc) (v : Word) :
    (s.locWrite loc v).halted = s.halted := by cases loc <;> simp
@[simp] theorem State.locWrite_config (s : State) (loc : Loc) (v : Word) :
    (s.locWrite loc v).config = s.config := by cases loc <;> simp
@[simp] theorem State.locWrite_schedule (s : State) (loc : Loc) (v : Word) :
    (s.locWrite loc v).schedule = s.schedule := by cases loc <;> simp

/-- A location written changes no register but the one it names (R83). -/
theorem State.reg_locWrite_other (s : State) {loc : Loc} {r : Reg} (v : Word) (h : loc ≠ .reg r) :
    (s.locWrite loc v).reg r = s.reg r := by
  cases loc with
  | reg q => exact State.reg_setReg_ne s v (fun e => h (by rw [e]))
  | mem a => simp

/-- A location written stores the bytes of `Loc.stored` and no other (R83, R30). -/
theorem State.byte_locWrite_other (s : State) {loc : Loc} {a : Word} (v : Word) (h : a ∉ loc.stored) :
    (s.locWrite loc v).byte a = s.byte a := by
  cases loc with
  | reg q => rfl
  | mem b => exact State.byte_opWrite_other s v h

theorem State.wf_locWrite {s : State} (h : s.mem.wf) (loc : Loc) (v : Word) : (s.locWrite loc v).mem.wf := by
  cases loc with
  | reg q => exact h
  | mem a => exact State.wf_opWrite h a v

/-! ## The common sequences -/

/-- A one-operand instruction that answers a next state resolved its operand and wrote the result to it (R130). -/
theorem oneOperand_next {o : Operand} {f : Word → Flags → Word × Flags} {s t : State}
    (h : oneOperand o f s = .next t) :
    ∃ loc s1, resolve o s = .ok (loc, s1) ∧
      t = (s1.locWrite loc (f (s1.locRead loc) s1.flags).1).setFlags (f (s1.locRead loc) s1.flags).2 := by
  unfold oneOperand at h
  split at h
  · cases h
  · next loc s1 hr => cases h; exact ⟨loc, s1, hr, rfl⟩

/-- A one-operand instruction refuses only where its specifier does. -/
theorem oneOperand_refused {o : Operand} {f : Word → Flags → Word × Flags} {s : State} {e : Refusal}
    (h : oneOperand o f s = .refused e) : resolve o s = .error e := by
  unfold oneOperand at h
  split at h
  · next hr => cases h; exact hr
  · cases h

theorem oneOperand_not_fault {o : Operand} {f : Word → Flags → Word × Flags} {s : State} (e : Fault) :
    oneOperand o f s ≠ .fault e := nomatch e

/-- A two-operand instruction that answers a next state resolved and read its source, then resolved its destination
(R122). -/
theorem twoOperand_next {src dst : Operand} {k : Word → Loc → State → State} {s t : State}
    (h : twoOperand src dst k s = .next t) :
    ∃ sloc s1 dloc s2, resolve src s = .ok (sloc, s1) ∧ resolve dst s1 = .ok (dloc, s2) ∧
      t = k (s1.locRead sloc) dloc s2 := by
  unfold twoOperand at h
  split at h
  · cases h
  · next sloc s1 hs =>
    split at h
    · cases h
    · next dloc s2 hd => cases h; exact ⟨sloc, s1, dloc, s2, hs, hd, rfl⟩

/-- A two-operand instruction refuses only where one of its specifiers does. -/
theorem twoOperand_refused {src dst : Operand} {k : Word → Loc → State → State} {s : State} {e : Refusal}
    (h : twoOperand src dst k s = .refused e) :
    resolve src s = .error e ∨ ∃ sloc s1, resolve src s = .ok (sloc, s1) ∧ resolve dst s1 = .error e := by
  unfold twoOperand at h
  split at h
  · next hs => cases h; exact .inl hs
  · next sloc s1 hs =>
    split at h
    · next hd => cases h; exact .inr ⟨sloc, s1, hs, hd⟩
    · cases h

/-- JMP's and JSR's target: the address of a specifier that is not a register (R117, R119). -/
theorem resolveAddress_ok {m : String} {o : Operand} {s s1 : State} {a : Word}
    (h : resolveAddress m o s = .ok (a, s1)) : resolve o s = .ok (.mem a, s1) := by
  unfold resolveAddress at h
  split at h
  · cases h
  · cases h
  · next hr => cases h; exact hr

theorem resolveAddress_error {m : String} {o : Operand} {s : State} {e : Refusal}
    (h : resolveAddress m o s = .error e) :
    resolve o s = .error e ∨ (o.mode = .register ∧ e = .noAddress m) := by
  unfold resolveAddress at h
  split at h
  · next hr => cases h; exact .inl hr
  · next hr => cases h; exact .inr ⟨(resolve_reg hr).1, rfl⟩
  · cases h

end Sys2Proof.Machine
end

