-- ==== Sys2Proof/Laws/PerInstr.lean ====
section
/-! SUPPORT. Facts stated of every instruction as syntax, one lemma per constructor. -/

namespace Sys2Proof.Laws.EncodingLength

/-- The encoder writes the bytes the decoder's length rule asks for (30_encoding.md R50, R65): one byte, or a first
byte that has a second one, and that one. -/
def Statement (i : Instr) : Prop :=
  (∃ b1, encode i = [b1] ∧ hasSecondByte b1 = false) ∨
    (∃ b1 b2, encode i = [b1, b2] ∧ hasSecondByte b1 = true)

theorem nop : Statement .nop := .inl ⟨_, rfl, by decide⟩

theorem ccc (m : FlagMask) : Statement (.ccc m) :=
  .inl ⟨_, rfl, by rcases m with ⟨_ | _, _ | _, _ | _, _ | _⟩ <;> decide⟩

theorem scc (m : FlagMask) : Statement (.scc m) :=
  .inl ⟨_, rfl, by rcases m with ⟨_ | _, _ | _, _ | _, _ | _⟩ <;> decide⟩

theorem br (d : Byte) : Statement (.br d) := .inr ⟨_, _, rfl, by decide⟩

theorem bne (d : Byte) : Statement (.bne d) := .inr ⟨_, _, rfl, by decide⟩

theorem beq (d : Byte) : Statement (.beq d) := .inr ⟨_, _, rfl, by decide⟩

theorem bpl (d : Byte) : Statement (.bpl d) := .inr ⟨_, _, rfl, by decide⟩

theorem bmi (d : Byte) : Statement (.bmi d) := .inr ⟨_, _, rfl, by decide⟩

theorem bvc (d : Byte) : Statement (.bvc d) := .inr ⟨_, _, rfl, by decide⟩

theorem bvs (d : Byte) : Statement (.bvs d) := .inr ⟨_, _, rfl, by decide⟩

theorem bcc (d : Byte) : Statement (.bcc d) := .inr ⟨_, _, rfl, by decide⟩

theorem bcs (d : Byte) : Statement (.bcs d) := .inr ⟨_, _, rfl, by decide⟩

theorem bge (d : Byte) : Statement (.bge d) := .inr ⟨_, _, rfl, by decide⟩

theorem blt (d : Byte) : Statement (.blt d) := .inr ⟨_, _, rfl, by decide⟩

theorem bgt (d : Byte) : Statement (.bgt d) := .inr ⟨_, _, rfl, by decide⟩

theorem ble (d : Byte) : Statement (.ble d) := .inr ⟨_, _, rfl, by decide⟩

theorem bhi (d : Byte) : Statement (.bhi d) := .inr ⟨_, _, rfl, by decide⟩

theorem bls (d : Byte) : Statement (.bls d) := .inr ⟨_, _, rfl, by decide⟩

theorem reserved3F : Statement .reserved3F := .inl ⟨_, rfl, by decide⟩

theorem jmp (o : Operand) : Statement (.jmp o) := .inr ⟨_, _, rfl, by decide⟩

theorem sob (r : Reg) (d : Byte) : Statement (.sob r d) := .inr ⟨_, _, rfl, by cases r <;> decide⟩

theorem jsr (r : Reg) (t : Operand) : Statement (.jsr r t) := .inr ⟨_, _, rfl, by cases r <;> decide⟩

theorem rts (r : Reg) : Statement (.rts r) := .inl ⟨_, rfl, by cases r <;> decide⟩

theorem clr (o : Operand) : Statement (.clr o) := .inr ⟨_, _, rfl, by decide⟩

theorem not (o : Operand) : Statement (.not o) := .inr ⟨_, _, rfl, by decide⟩

theorem inc (o : Operand) : Statement (.inc o) := .inr ⟨_, _, rfl, by decide⟩

theorem dec (o : Operand) : Statement (.dec o) := .inr ⟨_, _, rfl, by decide⟩

theorem neg (o : Operand) : Statement (.neg o) := .inr ⟨_, _, rfl, by decide⟩

theorem tst (o : Operand) : Statement (.tst o) := .inr ⟨_, _, rfl, by decide⟩

theorem ror (o : Operand) : Statement (.ror o) := .inr ⟨_, _, rfl, by decide⟩

theorem rol (o : Operand) : Statement (.rol o) := .inr ⟨_, _, rfl, by decide⟩

theorem asr (o : Operand) : Statement (.asr o) := .inr ⟨_, _, rfl, by decide⟩

theorem asl (o : Operand) : Statement (.asl o) := .inr ⟨_, _, rfl, by decide⟩

theorem adc (o : Operand) : Statement (.adc o) := .inr ⟨_, _, rfl, by decide⟩

theorem sbc (o : Operand) : Statement (.sbc o) := .inr ⟨_, _, rfl, by decide⟩

theorem reserved8C : Statement .reserved8C := .inl ⟨_, rfl, by decide⟩

theorem reserved8D : Statement .reserved8D := .inl ⟨_, rfl, by decide⟩

theorem reserved8E : Statement .reserved8E := .inl ⟨_, rfl, by decide⟩

theorem reserved8F : Statement .reserved8F := .inl ⟨_, rfl, by decide⟩

theorem mov (s d : Operand) : Statement (.mov s d) :=
  .inr ⟨_, _, rfl, by rcases s with ⟨m, r⟩; cases m <;> cases r <;> decide⟩

theorem add (s d : Operand) : Statement (.add s d) :=
  .inr ⟨_, _, rfl, by rcases s with ⟨m, r⟩; cases m <;> cases r <;> decide⟩

theorem sub (s d : Operand) : Statement (.sub s d) :=
  .inr ⟨_, _, rfl, by rcases s with ⟨m, r⟩; cases m <;> cases r <;> decide⟩

theorem cmp (s d : Operand) : Statement (.cmp s d) :=
  .inr ⟨_, _, rfl, by rcases s with ⟨m, r⟩; cases m <;> cases r <;> decide⟩

theorem and (s d : Operand) : Statement (.and s d) :=
  .inr ⟨_, _, rfl, by rcases s with ⟨m, r⟩; cases m <;> cases r <;> decide⟩

theorem or (s d : Operand) : Statement (.or s d) :=
  .inr ⟨_, _, rfl, by rcases s with ⟨m, r⟩; cases m <;> cases r <;> decide⟩

theorem hlt : Statement .hlt := .inl ⟨_, rfl, by decide⟩

end Sys2Proof.Laws.EncodingLength
end

