-- ==== Sys2Proof/Laws/Step.lean ====
section
/-! SUPPORT. What a step can do: one inversion lemma, from which invariants follow case by case. -/

namespace Sys2Proof.Machine

/-- The processor's turn: the halted machine stays, or an interrupt is entered, or one instruction runs (R57). -/
theorem processorTurn_next {s t : State} (h : processorTurn s = .next t) :
    (s.halted = true ∧ t = s) ∨
    (s.halted = false ∧ s.takesInterrupt = true ∧ t = s.interruptEntry) ∨
    (s.halted = false ∧ s.takesInterrupt = false ∧
      ∃ i s1, s.fetchInstr = .ok (i, s1) ∧ exec i s1 = .next t) := by
  unfold processorTurn at h
  split at h
  · next hh => cases h; exact .inl ⟨hh, rfl⟩
  · next hh =>
    split at h
    · next hi => cases h; exact .inr (.inl ⟨by simpa using hh, hi, rfl⟩)
    · next hi =>
      unfold runInstr at h
      split at h
      · cases h
      · next i s1 hf => exact .inr (.inr ⟨by simpa using hh, by simpa using hi, i, s1, hf, h⟩)

/-! ## The move a step spends -/

@[simp] theorem Schedule.head_processorOnly : Schedule.processorOnly.head = .processor := rfl
@[simp] theorem Schedule.head_free (n : Nat) : (Schedule.free n).head = Config.freeMove n := rfl
@[simp] theorem Schedule.head_move (m : AgentMove) (l : Schedule) : (Schedule.move m l).head = m := rfl
@[simp] theorem Schedule.tail_processorOnly : Schedule.processorOnly.tail = .processorOnly := rfl
@[simp] theorem Schedule.tail_free (n : Nat) : (Schedule.free n).tail = .free (n + 1) := rfl
@[simp] theorem Schedule.tail_move (m : AgentMove) (l : Schedule) : (Schedule.move m l).tail = l := rfl

@[simp] theorem State.afterSchedule_regs (s : State) : s.afterSchedule.regs = s.regs := rfl
@[simp] theorem State.afterSchedule_reg (s : State) (r : Reg) : s.afterSchedule.reg r = s.reg r := rfl
@[simp] theorem State.afterSchedule_pc (s : State) : s.afterSchedule.pc = s.pc := rfl
@[simp] theorem State.afterSchedule_flags (s : State) : s.afterSchedule.flags = s.flags := rfl
@[simp] theorem State.afterSchedule_mem (s : State) : s.afterSchedule.mem = s.mem := rfl
@[simp] theorem State.afterSchedule_byte (s : State) (a : Word) : s.afterSchedule.byte a = s.byte a := rfl
@[simp] theorem State.afterSchedule_halted (s : State) : s.afterSchedule.halted = s.halted := rfl
@[simp] theorem State.afterSchedule_config (s : State) : s.afterSchedule.config = s.config := rfl
@[simp] theorem State.afterSchedule_schedule (s : State) : s.afterSchedule.schedule = s.schedule.tail := rfl
@[simp] theorem State.afterSchedule_takesInterrupt (s : State) :
    s.afterSchedule.takesInterrupt = s.takesInterrupt := rfl

/-- When the processor moves, the step is its turn (R57). -/
theorem step_of_processorMoves {s : State} (h : s.processorMoves) : step s = processorTurn s.afterSchedule := by
  unfold State.processorMoves at h
  simp only [step, nextMove, h]

/-- All that a step which answers a next state can be: the processor's turn or the turn of a device, with the move
spent (R42, R161). -/
theorem step_next {s t : State} (h : step s = .next t) :
    (s.processorMoves ∧ processorTurn s.afterSchedule = .next t) ∨
    (s.schedule.head = .timer ∧ t = s.afterSchedule.timerTurn) ∨
    (∃ k, s.schedule.head = .key k ∧ t = s.afterSchedule.keyTurn k) := by
  unfold step nextMove at h
  split at h
  · next hs => exact .inl ⟨hs, h⟩
  · next hs => cases h; exact .inr (.inl ⟨hs, rfl⟩)
  · next k hs => cases h; exact .inr (.inr ⟨k, hs, rfl⟩)

end Sys2Proof.Machine
end

