-- ==== Sys2Proof/Tests/Slice0.lean ====
section
/-! SUPPORT. The model's own tests. Expected values are the spec's: the words are written out from 30_encoding.md and
the values come from the examples of the instruction files and from 95_test_vectors.md. Then, for each statement of
Obligations.lean with hypotheses, a concrete state and operands that meet them, clause by clause. -/

namespace Sys2Proof.Tests

open Sys2Proof.Machine Sys2Proof.Claims

/-! ## Helpers -/

/-- The reset state with bytes placed at an address and R7 there. -/
def code (pc : Word) (bytes : List Byte) : State := (State.reset.storeBytes pc bytes).setPc pc

/-- The four flags from the card's order NZVC. -/
def nzvc (n z v c : Bool) : Flags := { n := n, z := z, v := v, c := c }

/-- The outcome is a next state with this property. -/
def nextWith (o : Host.Outcome State Fault Refusal) (p : State → Bool) : Bool :=
  match o with
  | .next t => p t
  | .fault _ => false
  | .refused _ => false

/-- The outcome is this refusal. -/
def refusedWith (o : Host.Outcome State Fault Refusal) (e : Refusal) : Bool :=
  match o with
  | .next _ => false
  | .fault _ => false
  | .refused e' => decide (e' = e)

/-- One step of `s` leads to a state in which the register, R7 and the flags are as given. -/
def stepGives (s : State) (r : Reg) (w pc : Word) (f : Flags) : Bool :=
  nextWith (step s) fun t => decide (t.reg r = w) && decide (t.pc = pc) && decide (t.flags = f)

/-- A register-only step at 0100h: R1 holds `v`, the flags are `f`. -/
def onR1 (bytes : List Byte) (v : Word) (f : Flags) : State := ((code 0x0100 bytes).setReg .r1 v).setFlags f

/-! ## WellFormed: each check refuses an ill-formed term -/

theorem test_wf_reserved3F : Instr.reserved3F.wellFormed = false := by decide
theorem test_wf_reserved8C : Instr.reserved8C.wellFormed = false := by decide
theorem test_wf_reserved8D : Instr.reserved8D.wellFormed = false := by decide
theorem test_wf_reserved8E : Instr.reserved8E.wellFormed = false := by decide
theorem test_wf_reserved8F : Instr.reserved8F.wellFormed = false := by decide
theorem test_wf_jmp_register : (Instr.jmp ⟨.register, .r1⟩).wellFormed = false := by decide
theorem test_wf_jsr_register : (Instr.jsr .r7 ⟨.register, .r1⟩).wellFormed = false := by decide
theorem test_wf_jmp_immediate : (Instr.jmp ⟨.postInc, .r7⟩).wellFormed = true := by decide

/-! ## Decode: words written out from 30_encoding.md R51, R52, R58 to R61 -/

/-- 0000 xxxx. -/
theorem test_decode_nop : decode [0x0A] = .ok (.nop, []) := by decide
/-- 0001 nzvc with 1010. -/
theorem test_decode_ccc : decode [0x1A] = .ok (.ccc ⟨true, false, true, false⟩, []) := by decide
/-- 0010 nzvc with 0101. -/
theorem test_decode_scc : decode [0x25] = .ok (.scc ⟨false, true, false, true⟩, []) := by decide
/-- 0011 0000, dd8. -/
theorem test_decode_br : decode [0x30, 0xFE] = .ok (.br 0xFE, []) := by decide
/-- 0011 0001, dd8. -/
theorem test_decode_bne : decode [0x31, 0xFE] = .ok (.bne 0xFE, []) := by decide
/-- 0011 0010, dd8. -/
theorem test_decode_beq : decode [0x32, 0xFE] = .ok (.beq 0xFE, []) := by decide
/-- 0011 0011, dd8. -/
theorem test_decode_bpl : decode [0x33, 0xFE] = .ok (.bpl 0xFE, []) := by decide
/-- 0011 0100, dd8. -/
theorem test_decode_bmi : decode [0x34, 0xFE] = .ok (.bmi 0xFE, []) := by decide
/-- 0011 0101, dd8. -/
theorem test_decode_bvc : decode [0x35, 0xFE] = .ok (.bvc 0xFE, []) := by decide
/-- 0011 0110, dd8. -/
theorem test_decode_bvs : decode [0x36, 0xFE] = .ok (.bvs 0xFE, []) := by decide
/-- 0011 0111, dd8. -/
theorem test_decode_bcc : decode [0x37, 0xFE] = .ok (.bcc 0xFE, []) := by decide
/-- 0011 1000, dd8. -/
theorem test_decode_bcs : decode [0x38, 0xFE] = .ok (.bcs 0xFE, []) := by decide
/-- 0011 1001, dd8. -/
theorem test_decode_bge : decode [0x39, 0xFE] = .ok (.bge 0xFE, []) := by decide
/-- 0011 1010, dd8. -/
theorem test_decode_blt : decode [0x3A, 0xFE] = .ok (.blt 0xFE, []) := by decide
/-- 0011 1011, dd8. -/
theorem test_decode_bgt : decode [0x3B, 0xFE] = .ok (.bgt 0xFE, []) := by decide
/-- 0011 1100, dd8. -/
theorem test_decode_ble : decode [0x3C, 0xFE] = .ok (.ble 0xFE, []) := by decide
/-- 0011 1101, dd8. -/
theorem test_decode_bhi : decode [0x3D, 0xFE] = .ok (.bhi 0xFE, []) := by decide
/-- 0011 1110, dd8. -/
theorem test_decode_bls : decode [0x3E, 0xFE] = .ok (.bls 0xFE, []) := by decide
/-- 0011 1111. -/
theorem test_decode_reserved3F : decode [0x3F] = .ok (.reserved3F, []) := by decide
/-- 0100 xxxx, xx 101 111. -/
theorem test_decode_jmp : decode [0x4F, 0xEF] = .ok (.jmp ⟨.postIncIndirect, .r7⟩, []) := by decide
/-- 0101 x001, dd8. -/
theorem test_decode_sob : decode [0x59, 0x04] = .ok (.sob .r1 0x04, []) := by decide
/-- 0110 x101, xx 101 111. -/
theorem test_decode_jsr : decode [0x65, 0x2F] = .ok (.jsr .r5 ⟨.postIncIndirect, .r7⟩, []) := by decide
/-- 0111 x110. -/
theorem test_decode_rts : decode [0x7E] = .ok (.rts .r6, []) := by decide
/-- 1000 0000, 00 000 101. -/
theorem test_decode_clr : decode [0x80, 0x05] = .ok (.clr ⟨.register, .r5⟩, []) := by decide
/-- 1000 0001, 00 001 110. -/
theorem test_decode_not : decode [0x81, 0x0E] = .ok (.not ⟨.postInc, .r6⟩, []) := by decide
/-- 1000 0010, 00 010 011. -/
theorem test_decode_inc : decode [0x82, 0x13] = .ok (.inc ⟨.preDec, .r3⟩, []) := by decide
/-- 1000 0011, 00 011 100. -/
theorem test_decode_dec : decode [0x83, 0x1C] = .ok (.dec ⟨.indexed, .r4⟩, []) := by decide
/-- 1000 0100, 00 100 001. -/
theorem test_decode_neg : decode [0x84, 0x21] = .ok (.neg ⟨.indirect, .r1⟩, []) := by decide
/-- 1000 0101, 00 101 010. -/
theorem test_decode_tst : decode [0x85, 0x2A] = .ok (.tst ⟨.postIncIndirect, .r2⟩, []) := by decide
/-- 1000 0110, 00 110 111. -/
theorem test_decode_ror : decode [0x86, 0x37] = .ok (.ror ⟨.preDecIndirect, .r7⟩, []) := by decide
/-- 1000 0111, 00 111 000. -/
theorem test_decode_rol : decode [0x87, 0x38] = .ok (.rol ⟨.indexedIndirect, .r0⟩, []) := by decide
/-- 1000 1000, 11 000 101. -/
theorem test_decode_asr : decode [0x88, 0xC5] = .ok (.asr ⟨.register, .r5⟩, []) := by decide
/-- 1000 1001, 10 111 100. -/
theorem test_decode_asl : decode [0x89, 0xBC] = .ok (.asl ⟨.indexedIndirect, .r4⟩, []) := by decide
/-- 1000 1010, 01 001 011. -/
theorem test_decode_adc : decode [0x8A, 0x4B] = .ok (.adc ⟨.postInc, .r3⟩, []) := by decide
/-- 1000 1011, 10 010 110. -/
theorem test_decode_sbc : decode [0x8B, 0x96] = .ok (.sbc ⟨.preDec, .r6⟩, []) := by decide
/-- 1000 1100. -/
theorem test_decode_reserved8C : decode [0x8C] = .ok (.reserved8C, []) := by decide
/-- 1000 1101. -/
theorem test_decode_reserved8D : decode [0x8D] = .ok (.reserved8D, []) := by decide
/-- 1000 1110. -/
theorem test_decode_reserved8E : decode [0x8E] = .ok (.reserved8E, []) := by decide
/-- 1000 1111. -/
theorem test_decode_reserved8F : decode [0x8F] = .ok (.reserved8F, []) := by decide
/-- 1 001 001 1, 11 000 000. -/
theorem test_decode_mov : decode [0x93, 0xC0] = .ok (.mov ⟨.postInc, .r7⟩ ⟨.register, .r0⟩, []) := by decide
/-- 1 010 011 0, 01 011 010. -/
theorem test_decode_add : decode [0xA6, 0x5A] = .ok (.add ⟨.indexed, .r1⟩ ⟨.indexed, .r2⟩, []) := by decide
/-- 1 011 100 1, 00 111 101. -/
theorem test_decode_sub : decode [0xB9, 0x3D] = .ok (.sub ⟨.indirect, .r4⟩ ⟨.indexedIndirect, .r5⟩, []) := by decide
/-- 1 100 101 0, 10 001 110. -/
theorem test_decode_cmp : decode [0xCA, 0x8E] = .ok (.cmp ⟨.postIncIndirect, .r2⟩ ⟨.postInc, .r6⟩, []) := by decide
/-- 1 101 110 1, 01 110 001. -/
theorem test_decode_and : decode [0xDD, 0x71] = .ok (.and ⟨.preDecIndirect, .r5⟩ ⟨.preDecIndirect, .r1⟩, []) := by decide
/-- 1 110 111 0, 11 101 000. -/
theorem test_decode_or : decode [0xEE, 0xE8] = .ok (.or ⟨.indexedIndirect, .r3⟩ ⟨.postIncIndirect, .r0⟩, []) := by decide
/-- 1111 xxxx. -/
theorem test_decode_hlt : decode [0xF7] = .ok (.hlt, []) := by decide
theorem test_decode_empty : decode [] = .error .noByte := by decide
theorem test_decode_short : decode [0x67] = .error (.missingSecondByte 0x67) := by decide

/-- The row's 16 bits are `b1 ‖ b2`, and a one-byte row's are `b1`. -/
theorem test_table_numbers :
    decodeTableWord 16 0x93C0 = some (.mov ⟨.postInc, .r7⟩ ⟨.register, .r0⟩) ∧ decodeTableWord 8 0x77 = some (.rts .r7) ∧
      decodeTableWord 8 0x3F = some .reserved3F := by decide

/-! ## Lengths (R50, R65) -/

theorem test_length_add_six : (Instr.add ⟨.postIncIndirect, .r7⟩ ⟨.postIncIndirect, .r7⟩).length = 6 := by decide
theorem test_length_mov_immediate : (Instr.mov ⟨.postInc, .r7⟩ ⟨.register, .r0⟩).length = 4 := by decide

/-! ## One step: general and condition-code instructions -/

/-- 95_test_vectors.md 2.1. -/
theorem test_nop : stepGives ((code 0x0100 [0x00]).setFlags (nzvc true false true false)) .r0 0 0x0101
    (nzvc true false true false) = true := by decide
/-- 95_test_vectors.md 2.1: R7 is left after the HLT byte. -/
theorem test_hlt : nextWith (step (code 0x0005 [0xF0])) (fun t => t.halted && decide (t.pc = 0x0006)) = true := by decide
theorem test_hlt_final :
    nextWith (step ({ code 0x0005 [0x30, 0x05] with halted := true })) (fun t => decide (t.pc = 0x0005)) = true := by
  decide
/-- R93: mask 1010 clears N and V. -/
theorem test_ccc : stepGives ((code 0x0100 [0x1A]).setFlags (nzvc true true true true)) .r0 0 0x0101
    (nzvc false true false true) = true := by decide
/-- R94: mask 0101 sets Z and C. -/
theorem test_scc : stepGives ((code 0x0100 [0x25]).setFlags (nzvc true false false false)) .r0 0 0x0101
    (nzvc true true false true) = true := by decide

/-! ## One step: control flow; the examples of R102 to R116, taken and not taken -/

theorem test_br_taken : stepGives ((code 0x0100 [0x30, 0x05]).setFlags (nzvc true true true true)) .r0 0
    0x0107 (nzvc true true true true) = true := by decide
theorem test_bne_taken : stepGives ((code 0x0110 [0x31, 0xFC]).setFlags (nzvc true false true true)) .r0 0
    0x010E (nzvc true false true true) = true := by decide
theorem test_bne_not_taken : stepGives ((code 0x0110 [0x31, 0xFC]).setFlags (nzvc false true false false)) .r0 0
    0x0112 (nzvc false true false false) = true := by decide
theorem test_beq_taken : stepGives ((code 0x0100 [0x32, 0x02]).setFlags (nzvc false true false false)) .r0 0
    0x0104 (nzvc false true false false) = true := by decide
theorem test_beq_not_taken : stepGives ((code 0x0100 [0x32, 0x02]).setFlags (nzvc true false true true)) .r0 0
    0x0102 (nzvc true false true true) = true := by decide
theorem test_bpl_taken : stepGives ((code 0x0200 [0x33, 0x10]).setFlags (nzvc false true true true)) .r0 0
    0x0212 (nzvc false true true true) = true := by decide
theorem test_bpl_not_taken : stepGives ((code 0x0200 [0x33, 0x10]).setFlags (nzvc true false false false)) .r0 0
    0x0202 (nzvc true false false false) = true := by decide
theorem test_bmi_taken : stepGives ((code 0x0200 [0x34, 0x80]).setFlags (nzvc true false false false)) .r0 0
    0x0182 (nzvc true false false false) = true := by decide
theorem test_bmi_not_taken : stepGives ((code 0x0200 [0x34, 0x80]).setFlags (nzvc false true true true)) .r0 0
    0x0202 (nzvc false true true true) = true := by decide
theorem test_bvc_taken : stepGives ((code 0x0000 [0x35, 0x7F]).setFlags (nzvc true true false true)) .r0 0
    0x0081 (nzvc true true false true) = true := by decide
theorem test_bvc_not_taken : stepGives ((code 0x0000 [0x35, 0x7F]).setFlags (nzvc false false true false)) .r0 0
    0x0002 (nzvc false false true false) = true := by decide
theorem test_bvs_taken : stepGives ((code 0x0100 [0x36, 0x04]).setFlags (nzvc false false true false)) .r0 0
    0x0106 (nzvc false false true false) = true := by decide
theorem test_bvs_not_taken : stepGives ((code 0x0100 [0x36, 0x04]).setFlags (nzvc true true false true)) .r0 0
    0x0102 (nzvc true true false true) = true := by decide
theorem test_bcc_taken : stepGives ((code 0x0100 [0x37, 0x04]).setFlags (nzvc true true true false)) .r0 0
    0x0106 (nzvc true true true false) = true := by decide
theorem test_bcc_not_taken : stepGives ((code 0x0100 [0x37, 0x04]).setFlags (nzvc false false false true)) .r0 0
    0x0102 (nzvc false false false true) = true := by decide
theorem test_bcs_taken : stepGives ((code 0x0100 [0x38, 0xFE]).setFlags (nzvc false false false true)) .r0 0
    0x0100 (nzvc false false false true) = true := by decide
theorem test_bcs_not_taken : stepGives ((code 0x0100 [0x38, 0xFE]).setFlags (nzvc true true true false)) .r0 0
    0x0102 (nzvc true true true false) = true := by decide
theorem test_bge_taken : stepGives ((code 0x0100 [0x39, 0x06]).setFlags (nzvc true false true false)) .r0 0
    0x0108 (nzvc true false true false) = true := by decide
theorem test_bge_not_taken : stepGives ((code 0x0100 [0x39, 0x06]).setFlags (nzvc true false false false)) .r0 0
    0x0102 (nzvc true false false false) = true := by decide
theorem test_blt_taken : stepGives ((code 0x0100 [0x3A, 0x06]).setFlags (nzvc true false false false)) .r0 0
    0x0108 (nzvc true false false false) = true := by decide
theorem test_blt_not_taken : stepGives ((code 0x0100 [0x3A, 0x06]).setFlags (nzvc false false false false)) .r0 0
    0x0102 (nzvc false false false false) = true := by decide
theorem test_bgt_taken : stepGives ((code 0x0100 [0x3B, 0x06]).setFlags (nzvc false false false false)) .r0 0
    0x0108 (nzvc false false false false) = true := by decide
theorem test_bgt_not_taken : stepGives ((code 0x0100 [0x3B, 0x06]).setFlags (nzvc false true false false)) .r0 0
    0x0102 (nzvc false true false false) = true := by decide
theorem test_ble_taken : stepGives ((code 0x0100 [0x3C, 0x06]).setFlags (nzvc false true false false)) .r0 0
    0x0108 (nzvc false true false false) = true := by decide
theorem test_ble_not_taken : stepGives ((code 0x0100 [0x3C, 0x06]).setFlags (nzvc false false false false)) .r0 0
    0x0102 (nzvc false false false false) = true := by decide
theorem test_bhi_taken : stepGives ((code 0x0100 [0x3D, 0x06]).setFlags (nzvc false false false false)) .r0 0
    0x0108 (nzvc false false false false) = true := by decide
theorem test_bhi_not_taken : stepGives ((code 0x0100 [0x3D, 0x06]).setFlags (nzvc false false false true)) .r0 0
    0x0102 (nzvc false false false true) = true := by decide
theorem test_bls_taken : stepGives ((code 0x0100 [0x3E, 0x06]).setFlags (nzvc false false false true)) .r0 0
    0x0108 (nzvc false false false true) = true := by decide
theorem test_bls_not_taken : stepGives ((code 0x0100 [0x3E, 0x06]).setFlags (nzvc false false false false)) .r0 0
    0x0102 (nzvc false false false false) = true := by decide

/-- 95_test_vectors.md 2.4: `JMP (10h(R1))` with [0210h]=0300h. -/
theorem test_jmp_indexed_indirect :
    stepGives (((code 0x0100 [0x40, 0x39, 0x00, 0x10]).setReg .r1 0x0200).setMemWord 0x0210 0x0300) .r1 0x0200 0x0300
      (nzvc false false false false) = true := by decide
theorem test_jmp_register : refusedWith (step (onR1 [0x40, 0x01] 0x0200 (nzvc false false false false)))
    (.noAddress "JMP") = true := by decide
/-- 95_test_vectors.md 2.5: taken to 0106h - 4, and 0 wraps to FFFFh. -/
theorem test_sob_taken : stepGives ((code 0x0104 [0x51, 0x04]).setReg .r1 0x0000) .r1 0xFFFF 0x0102
    (nzvc false false false false) = true := by decide
theorem test_sob_falls_through : stepGives ((code 0x0104 [0x51, 0x04]).setReg .r1 0x0001) .r1 0x0000 0x0106
    (nzvc false false false false) = true := by decide
/-- 95_test_vectors.md 2.6: `JSR R5, 0200h`. -/
theorem test_jsr :
    nextWith (step (((code 0x0100 [0x65, 0x2F, 0x02, 0x00]).setReg .r6 0xFF80).setReg .r5 0xAAAA))
      (fun t => decide (t.reg .r5 = 0x0104) && decide (t.sp = 0xFF7E) && decide (t.memWord 0xFF7E = 0xAAAA) &&
        decide (t.pc = 0x0200)) = true := by decide
theorem test_jsr_register : refusedWith (step ((code 0x0100 [0x67, 0x01]).setReg .r6 0xFF80)) (.noAddress "JSR") = true := by
  decide
/-- 95_test_vectors.md 2.6: `RTS R5`, and `RTS R7` with an odd stack pointer. -/
theorem test_rts :
    nextWith (step ((((code 0x0100 [0x75]).setReg .r6 0xFF7E).setReg .r5 0x0104).setMemWord 0xFF7E 0xAAAA))
      (fun t => decide (t.reg .r5 = 0xAAAA) && decide (t.sp = 0xFF80) && decide (t.pc = 0x0104)) = true := by decide
theorem test_rts_r7 :
    nextWith (step (((code 0x0100 [0x77]).setReg .r6 0x1001).setMemWord 0x1001 0x0302))
      (fun t => decide (t.sp = 0x1003) && decide (t.pc = 0x0302)) = true := by decide

/-! ## One step: two operands (95_test_vectors.md 2.7 and the corner cases of R123 to R128) -/

/-- R123: `MOV #0100h, FFDCh` stores 00h and leaves Z = 0. -/
theorem test_mov_display :
    nextWith (step (code 0x0100 [0x93, 0xEF, 0x01, 0x00, 0xFF, 0xDC]))
      (fun t => decide (t.byte 0xFFDC = 0x00) && decide (t.byte 0xFFDD = 0x20) && !t.flags.z && decide (t.pc = 0x0106)) = true := by decide
/-- R123: `MOV #5, R0`; C as before. -/
theorem test_mov_immediate :
    stepGives ((code 0x0100 [0x93, 0xC0, 0x00, 0x05]).setFlags (nzvc true true true true)) .r0 0x0005 0x0104
      (nzvc false false false true) = true := by decide
/-- R124. -/
theorem test_add_overflow :
    stepGives ((((code 0x0100 [0xA0, 0x42]).setReg .r1 0x0001).setReg .r2 0x7FFF).setFlags (nzvc false false false false)) .r2 0x8000 0x0102
      (nzvc true false true false) = true := by decide
/-- R124. -/
theorem test_add_carry :
    stepGives ((((code 0x0100 [0xA0, 0x42]).setReg .r1 0xFFFF).setReg .r2 0x0001).setFlags (nzvc false false false false)) .r2 0x0000 0x0102
      (nzvc false true false true) = true := by decide
/-- R125. -/
theorem test_sub_borrow :
    stepGives ((((code 0x0100 [0xB0, 0x42]).setReg .r1 0x0005).setReg .r2 0x0003).setFlags (nzvc false false false false)) .r2 0xFFFE 0x0102
      (nzvc true false false true) = true := by decide
/-- R125. -/
theorem test_sub_overflow :
    stepGives ((((code 0x0100 [0xB0, 0x42]).setReg .r1 0x0001).setReg .r2 0x8000).setFlags (nzvc false false false false)) .r2 0x7FFF 0x0102
      (nzvc false false true false) = true := by decide
/-- R126: source minus destination. -/
theorem test_cmp_order :
    stepGives ((((code 0x0100 [0xC0, 0x42]).setReg .r1 0x0003).setReg .r2 0x0005).setFlags (nzvc false false false false)) .r2 0x0005 0x0102
      (nzvc true false false true) = true := by decide
/-- R126. -/
theorem test_cmp_overflow :
    stepGives ((((code 0x0100 [0xC0, 0x42]).setReg .r1 0x0001).setReg .r2 0x8000).setFlags (nzvc false false false false)) .r2 0x8000 0x0102
      (nzvc true false true true) = true := by decide
/-- R127: V cleared, C as before. -/
theorem test_and :
    stepGives ((((code 0x0100 [0xD0, 0x42]).setReg .r1 0xF0F0).setReg .r2 0x0FF0).setFlags (nzvc true true true true)) .r2 0x00F0 0x0102
      (nzvc false false false true) = true := by decide
/-- R128: V cleared, C as before. -/
theorem test_or :
    stepGives ((((code 0x0100 [0xE0, 0x42]).setReg .r1 0xF0F0).setReg .r2 0x0FF0).setFlags (nzvc false true true false)) .r2 0xFFF0 0x0102
      (nzvc true false false false) = true := by decide
/-- R84: `MOV (R1)+, (R1)+`; the source is read and R1 stepped before the destination is resolved. -/
theorem test_source_before_destination :
    nextWith (step (((code 0x0100 [0x92, 0x49]).setReg .r1 0x2000).setMemWord 0x2000 0x1234))
      (fun t => decide (t.memWord 0x2002 = 0x1234) && decide (t.reg .r1 = 0x2004)) = true := by decide

/-! ## One step: one operand on R1 (the examples and corner cases of R131 to R142) -/

theorem test_clr : stepGives (onR1 [0x80, 0x01] 0x1234 (nzvc true true true true)) .r1 0x0000 0x0102
    (nzvc false true false false) = true := by decide
theorem test_not : stepGives (onR1 [0x81, 0x01] 0x1234 (nzvc false false true false)) .r1 0xEDCB 0x0102
    (nzvc true false false true) = true := by decide
theorem test_not_zero : stepGives (onR1 [0x81, 0x01] 0xFFFF (nzvc false false false false)) .r1 0x0000 0x0102
    (nzvc false true false true) = true := by decide
theorem test_inc_wrap : stepGives (onR1 [0x82, 0x01] 0xFFFF (nzvc false false false false)) .r1 0x0000 0x0102
    (nzvc false true false true) = true := by decide
theorem test_inc_overflow : stepGives (onR1 [0x82, 0x01] 0x7FFF (nzvc false false false false)) .r1 0x8000 0x0102
    (nzvc true false true false) = true := by decide
theorem test_dec_borrow : stepGives (onR1 [0x83, 0x01] 0x0000 (nzvc false false false false)) .r1 0xFFFF 0x0102
    (nzvc true false false true) = true := by decide
theorem test_dec_overflow : stepGives (onR1 [0x83, 0x01] 0x8000 (nzvc false false false false)) .r1 0x7FFF 0x0102
    (nzvc false false true false) = true := by decide
theorem test_neg : stepGives (onR1 [0x84, 0x01] 0x1234 (nzvc false false false false)) .r1 0xEDCC 0x0102
    (nzvc true false false true) = true := by decide
theorem test_neg_min : stepGives (onR1 [0x84, 0x01] 0x8000 (nzvc false false false false)) .r1 0x8000 0x0102
    (nzvc true false true true) = true := by decide
theorem test_tst : stepGives (onR1 [0x85, 0x01] 0x8000 (nzvc false false true true)) .r1 0x8000 0x0102
    (nzvc true false false false) = true := by decide
theorem test_ror : stepGives (onR1 [0x86, 0x01] 0x1234 (nzvc false false false true)) .r1 0x891A 0x0102
    (nzvc true false true false) = true := by decide
theorem test_ror_out : stepGives (onR1 [0x86, 0x01] 0x0001 (nzvc false false false false)) .r1 0x0000 0x0102
    (nzvc false true true true) = true := by decide
theorem test_rol : stepGives (onR1 [0x87, 0x01] 0x8001 (nzvc false false false true)) .r1 0x0003 0x0102
    (nzvc false false true true) = true := by decide
theorem test_rol_in : stepGives (onR1 [0x87, 0x01] 0x4000 (nzvc false false false false)) .r1 0x8000 0x0102
    (nzvc true false true false) = true := by decide
theorem test_asr : stepGives (onR1 [0x88, 0x01] 0xFFFF (nzvc false false false false)) .r1 0xFFFF 0x0102
    (nzvc true false false true) = true := by decide
theorem test_asr_one : stepGives (onR1 [0x88, 0x01] 0x0001 (nzvc false false false true)) .r1 0x0000 0x0102
    (nzvc false true true true) = true := by decide
theorem test_asl : stepGives (onR1 [0x89, 0x01] 0x4000 (nzvc false false false false)) .r1 0x8000 0x0102
    (nzvc true false true false) = true := by decide
theorem test_asl_min : stepGives (onR1 [0x89, 0x01] 0x8000 (nzvc false false false false)) .r1 0x0000 0x0102
    (nzvc false true true true) = true := by decide
theorem test_adc : stepGives (onR1 [0x8A, 0x01] 0x7FFF (nzvc false false false true)) .r1 0x8000 0x0102
    (nzvc true false true false) = true := by decide
theorem test_adc_wrap : stepGives (onR1 [0x8A, 0x01] 0xFFFF (nzvc false false false true)) .r1 0x0000 0x0102
    (nzvc false true false true) = true := by decide
theorem test_sbc : stepGives (onR1 [0x8B, 0x01] 0x0000 (nzvc false false false true)) .r1 0xFFFF 0x0102
    (nzvc true false false false) = true := by decide
theorem test_sbc_no_carry : stepGives (onR1 [0x8B, 0x01] 0x1234 (nzvc false false false false)) .r1 0x1234 0x0102
    (nzvc false false false true) = true := by decide
/-- R142: with `SBC_C_MODE = borrow`, C is the borrow. -/
theorem test_sbc_borrow_mode :
    let s := onR1 [0x8B, 0x01] 0x0000 (nzvc false false false true)
    stepGives { s with config := { s.config with sbcCMode := .borrow } } .r1 0xFFFF 0x0102
      (nzvc true false false true) = true := by decide
/-- R133: in the 8-bit area FFh is read as 00FFh and 00h stored, with Z = 0 and C = 0. -/
theorem test_inc_byte_area :
    nextWith (step (((code 0x0100 [0x82, 0x21]).setReg .r1 0xFFC0).setByte 0xFFC0 0xFF))
      (fun t => decide (t.byte 0xFFC0 = 0x00) && decide (t.byte 0xFFC1 = 0x00) &&
        decide (t.flags = nzvc false false false false)) = true := by decide
/-- R132: in the 8-bit area N is 1 and Z is 0 whatever byte is stored. -/
theorem test_not_byte_area :
    nextWith (step (((code 0x0100 [0x81, 0x21]).setReg .r1 0xFFDC).setByte 0xFFDC 0xFF))
      (fun t => decide (t.byte 0xFFDC = 0x00) && decide (t.flags = nzvc true false false true)) = true := by decide

/-! ## Stops -/

theorem test_reserved : refusedWith (step (code 0x0100 [0x8D])) (.reservedOpcode 0x8D) = true := by decide
theorem test_fetch_refused : refusedWith (step (code 0xFFC0 [0x00])) (.fetchFromByteArea 0xFFC0) = true := by decide
theorem test_extension_refused : refusedWith (step (code 0xFFBD [0x80, 0x19])) (.fetchFromByteArea 0xFFBF) = true := by
  decide

/-! ## Memory -/

theorem test_memory_canonical : (((State.reset.setByte 5 1).setByte 3 2).setByte 5 0).mem = { cells := [(3, 2)] } := by
  decide
theorem test_memory_wf : (((State.reset.setByte 0xFFFF 1).setByte 3 2).setMemWord 4 0x0102).mem.wf := by decide
theorem test_big_endian : (State.reset.setMemWord 0x2000 0x1234).byte 0x2000 = 0x12 := by decide
theorem test_reset_display_space : State.reset.byte 0xFFDC = 0x20 ∧ State.reset.byte 0xFFDB = 0x00 := by decide
theorem test_reset_core : core.reset = State.reset := rfl

/-! ## Interrupts and devices (95_test_vectors.md 2.10 and P6) -/

/-- A state with these bytes in INTE and INTS, R6, R7 and IVET as in the first vector of 2.10, HLT at R7. -/
def pending (inte ints : Byte) : State :=
  ((((code 0x0123 [0xF0]).setReg .r6 0xFF80).setMemWord 0xFFBE 0x0400).setByte 0xFFD9 inte).setByte 0xFFD8 ints

theorem test_irq :
    [(0x00, 0x03), (0x80, 0x03), (0x83, 0x00), (0x81, 0x02), (0x82, 0x02), (0x81, 0x01), (0x83, 0x03), (0x83, 0x83),
      (0x03, 0x03), (0xFF, 0x7F), (0xFC, 0x03), (0x82, 0x7D)].map (fun p : Byte × Byte => (pending p.1 p.2).irq) =
      [false, false, false, false, true, true, true, false, false, true, false, false] := by decide
theorem test_interrupt_entry :
    nextWith (step ((pending 0x82 0x02).setFlags (nzvc true false true false)))
      (fun t => decide (t.sp = 0xFF7E) && decide (t.memWord 0xFF7E = 0x0123) && decide (t.pc = 0x0400) &&
        decide (t.ints = 0x82) && decide (t.inte = 0x82) && decide (t.flags = nzvc true false true false) &&
        !t.halted) = true := by decide
theorem test_no_interrupts :
    let s := pending 0x82 0x02
    nextWith (step { s with config := { s.config with hasInterrupts := false } }) (fun t => t.halted) = true := by decide
theorem test_key :
    nextWith (step { pending 0x82 0x00 with schedule := .move (.key 0x41) .processorOnly })
      (fun t => decide (t.tecdt = 0x41) && decide (t.tecst = 0x80) && decide (t.ints = 0x02) &&
        decide (t.pc = 0x0123) && decide (t.schedule = .processorOnly)) = true := by decide
theorem test_timer :
    nextWith (step { pending 0x82 0x02 with schedule := .move .timer (.free 5) })
      (fun t => decide (t.ints = 0x03) && decide (t.timdt = 0x00) && decide (t.schedule = .free 5)) = true := by
  decide
theorem test_glyphs : (glyphOf 0x41, glyphOf 0x0D, glyphOf 0x7F) = (.char 'A', .control "cr", .control "del") := by decide

/-! ## The host's placement -/

theorem test_with_fetch_word :
    nextWith (step ((State.reset.setReg .r3 7).withFetchWord 16 0x8203)) (fun t => decide (t.reg .r3 = 8)) = true := by
  decide
theorem test_with_fetch_word_halted :
    nextWith (step (({ State.reset with halted := true, schedule := .move .timer (.free 0) } : State).withFetchWord 8 0xF0))
      (fun t => t.halted && decide (t.pc = 1) && decide (t.schedule = .move .timer (.free 0))) = true := by decide

/-! ## The hypotheses of the statements are met -/

/-- A state that fetches, at `pc`, with the bytes there. -/
theorem fetches_code (pc : Word) (bytes : List Byte) (h : (code pc bytes).takesInterrupt = false)
    (h' : (code pc bytes).halted = false) (hs : (code pc bytes).processorMoves) : Fetches (code pc bytes) :=
  ⟨hs, h', h⟩

theorem fetches_nop : Fetches (code 0xFFBF [0x0F]) := fetches_code _ _ (by decide) (by decide) rfl
theorem fetches_hlt : Fetches (code 0xFFBF [0xF0]) := fetches_code _ _ (by decide) (by decide) rfl
theorem fetches_reserved : Fetches (code 0xFFBF [0x3F]) := fetches_code _ _ (by decide) (by decide) rfl
theorem fetches_bne : Fetches (code 0xFFBE [0x31, 0x80]) := fetches_code _ _ (by decide) (by decide) rfl
theorem fetches_bgt : Fetches (code 0xFFBE [0x3B, 0x7F]) := fetches_code _ _ (by decide) (by decide) rfl
theorem fetches_area : Fetches (code 0xFFC0 []) := fetches_code _ _ (by decide) (by decide) rfl
theorem fetches_cut : Fetches (code 0xFFBF [0x31]) := fetches_code _ _ (by decide) (by decide) rfl

theorem witness_DontCareBitsIgnored :
    (0x4F : Byte) &&& careFirst 0x4F = (0x40 : Byte) &&& careFirst 0x40 ∧
    (0xEF : Byte) &&& careSecond 0x4F = (0x2F : Byte) &&& careSecond 0x4F ∧
    (0x0F : Byte).toNat < 0x10 ∧ 0xF0 ≤ (0xF0 : Byte).toNat := by decide

theorem witness_StraightLineAdvances :
    straightLine (.add ⟨.postIncIndirect, .r7⟩ ⟨.indexed, .r2⟩) = true ∧
    nextWith (exec (.add ⟨.postIncIndirect, .r7⟩ ⟨.indexed, .r2⟩) (code 0x0102 [0x20, 0x00, 0x00, 0x04]))
      (fun t => decide (t.pc = 0x0106)) = true := by decide

theorem witness_IndexedModesResolve :
    (code 0xFFBE []).pc.toNat < 0xFFBF ∧ 0xFFBF ≤ (code 0xFFBF []).pc.toNat ∧ 0xFFBF ≤ (code 0xFFFF []).pc.toNat := by
  decide

theorem witness_ProgramCounterModes : (code 0xFFBE [0x12]).pc.toNat < 0xFFBF ∧ (code 0 [0x12]).pc.toNat < 0xFFBF := by
  decide

theorem witness_SpecifierResolvesOrRefuses :
    (Operand.mk .indexed .r2).fetchable (code 0xFFBE []).pc = true ∧
    (Operand.mk .preDec .r7).fetchable (code 0xFFFF []).pc = true ∧
    (Operand.mk .indexedIndirect .r7).fetchable (code 0xFFBF []).pc = false ∧
    Reg.r3 ∉ steppedReg ⟨.postInc, .r2⟩ := by decide

theorem witness_OperandWriteStoresBytes :
    (0xFFBF : Word).toNat < 0xFFC0 ∧ 0xFFC0 ≤ (0xFFC0 : Word).toNat ∧ (0xFFC1 : Word) ≠ 0xFFC0 ∧
    0xFFC0 ≤ (0xFFFF : Word).toNat := by decide

theorem witness_EqualReadsEqualMemories :
    (code 0x0100 [0x12, 0x34]).mem.wf ∧
    ∀ a, (code 0x0100 [0x12, 0x34]).mem.read a = ({ cells := [(0x0100, 0x12), (0x0101, 0x34)] } : Memory).read a :=
  ⟨by decide, fun _ => rfl⟩

theorem witness_StepKeepsMemoryCanonical :
    (code 0x0100 [0x80, 0x2F, 0x01, 0x00]).mem.wf ∧
    ∃ t, step (code 0x0100 [0x80, 0x2F, 0x01, 0x00]) = .next t := ⟨by decide, _, rfl⟩

theorem witness_DisplayShowsStores : 0 < 36 ∧ 35 < 36 ∧ (0xFFDB : Word).toNat < 0xFFDC := by decide

theorem witness_NopOnlyAdvances :
    highNibble 0x0F = 0 ∧ Fetches (code 0xFFBF [0x0F]) ∧ (code 0xFFBF [0x0F]).pc.toNat < 0xFFC0 ∧
    highNibble ((code 0xFFBF [0x0F]).byte (code 0xFFBF [0x0F]).pc) = 0 :=
  ⟨by decide, fetches_nop, by decide, by decide⟩

theorem witness_HltStops :
    highNibble 0xF0 = 15 ∧ Fetches (code 0xFFBF [0xF0]) ∧ (code 0xFFBF [0xF0]).pc.toNat < 0xFFC0 ∧
    highNibble ((code 0xFFBF [0xF0]).byte (code 0xFFBF [0xF0]).pc) = 15 ∧
    (code 0xFFBF [0xF0]).halt.processorMoves ∧ (code 0xFFBF [0xF0]).halt.halted = true :=
  ⟨by decide, fetches_hlt, by decide, by decide, rfl, by decide⟩

/-- Both values of the condition, and a step at the last address a branch fits at. -/
theorem witness_FlagBranches :
    (nzvc false false false false).z = false ∧ ¬ (nzvc false true false false).z = false ∧
    Fetches (code 0xFFBE [0x31, 0x80]) ∧ (code 0xFFBE [0x31, 0x80]).pc.toNat < 0xFFBF ∧
    (code 0xFFBE [0x31, 0x80]).byte (code 0xFFBE [0x31, 0x80]).pc = 0x31 :=
  ⟨by decide, by decide, fetches_bne, by decide, by decide⟩

theorem witness_ComparisonBranches :
    ((nzvc true false true false).n = (nzvc true false true false).v ∧ (nzvc true false true false).z = false) ∧
    ¬ ((nzvc true true true false).n = (nzvc true true true false).v ∧ (nzvc true true true false).z = false) ∧
    Fetches (code 0xFFBE [0x3B, 0x7F]) ∧ (code 0xFFBE [0x3B, 0x7F]).pc.toNat < 0xFFBF ∧
    (code 0xFFBE [0x3B, 0x7F]).byte (code 0xFFBE [0x3B, 0x7F]).pc = 0x3B :=
  ⟨by decide, by decide, fetches_bgt, by decide, by decide⟩

theorem witness_CompareThenBranch :
    ∃ t, exec (.cmp ⟨.postInc, .r1⟩ ⟨.register, .r2⟩) (code 0x0102 []) = .next t := ⟨_, rfl⟩

theorem witness_JmpGoesToAddress :
    (Operand.mk .indexed .r1).hasAddress = true ∧ (Operand.mk .indexed .r1).fetchable (code 0xFFBE []).pc = true ∧
    (Operand.mk .indirect .r1).fetchable (code 0xFFFF []).pc = true := by decide

/-- The last stack word below the 8-bit area and the first byte of it; R6 and R7 as the link register. -/
theorem witness_JsrLinks :
    (Operand.mk .indexed .r1).hasAddress = true ∧ (Operand.mk .indexed .r1).fetchable (code 0xFFBE []).pc = true ∧
    (((code 0x0100 []).setReg .r6 0xFFC1).sp - 2).toNat < 0xFFC0 ∧
    ¬ (((code 0x0100 []).setReg .r6 0xFFC2).sp - 2).toNat < 0xFFC0 ∧
    Reg.r7 ≠ .r6 ∧ Reg.r6 ≠ .r7 ∧ (0xFFC1 : Word) ∉ storedAddresses 0xFFBF ∧ (0xFFC1 : Word) ∉ storedAddresses 0xFFC0 := by
  decide

theorem witness_RtsReturns : Reg.r5 ≠ .r7 ∧ Reg.r5 ≠ .r6 ∧ Reg.r0 ≠ .r5 ∧ Reg.r7 ≠ .r6 := by decide

/-- The state before a call: R6 such that the stack word is the last one below the 8-bit area. -/
def beforeCall : State := ((code 0x0102 [0x02, 0x00]).setReg .r6 0xFFC1).setReg .r5 0xAAAA

theorem witness_CallThenReturn :
    ∃ s1 t, Reg.r5 ≠ .r6 ∧ Reg.r5 ≠ .r7 ∧ resolve ⟨.postIncIndirect, .r7⟩ beforeCall = .ok (.mem 0x0200, s1) ∧
      (s1.sp - 2).toNat < 0xFFC0 ∧ exec (.jsr .r5 ⟨.postIncIndirect, .r7⟩) beforeCall = .next t ∧
      (t.setPc 0x0300).sp = t.sp ∧ (t.setPc 0x0300).opRead t.sp = t.opRead t.sp ∧ (t.setPc 0x0300).reg .r5 = t.reg .r5 :=
  ⟨_, _, by decide, by decide, rfl, by decide, rfl, by decide, by decide, by decide⟩

/-- The hypothesis of MOV, ADD, SUB, CMP, AND and OR: both extension words at the last addresses they fit at. -/
theorem witness_two_operand :
    extensionsFetchable [⟨.indexed, .r1⟩, ⟨.indexedIndirect, .r2⟩] (code 0xFFBC []).pc = true ∧
    extensionsFetchable [⟨.preDec, .r7⟩, ⟨.indexed, .r2⟩] (code 0xFFC0 []).pc = true ∧
    highNibble 0x9F = 9 ∧ highNibble 0xA0 = 10 ∧ highNibble 0xB0 = 11 ∧ highNibble 0xC0 = 12 ∧ highNibble 0xD0 = 13 ∧
    highNibble 0xEF = 14 := by decide
theorem witness_MovCopies : extensionsFetchable [⟨.postInc, .r7⟩, ⟨.indexed, .r2⟩] (code 0xFFBC []).pc = true := by decide
theorem witness_AddSums : extensionsFetchable [⟨.indexed, .r1⟩, ⟨.indexed, .r2⟩] (code 0xFFBC []).pc = true := by decide
theorem witness_SubCmpDifferences :
    extensionsFetchable [⟨.indexed, .r1⟩, ⟨.register, .r7⟩] (code 0xFFBE []).pc = true := by decide
theorem witness_AndOrCombineBits :
    extensionsFetchable [⟨.register, .r1⟩, ⟨.indexed, .r1⟩] (code 0xFFBE []).pc = true := by decide

/-- The hypothesis of the one-operand instructions, at the last address an extension word fits at, and without one. -/
theorem witness_ClrNotTst : (Operand.mk .indexed .r1).fetchable (code 0xFFBE []).pc = true := by decide
theorem witness_IncDec : (Operand.mk .indexedIndirect .r7).fetchable (code 0xFFBE []).pc = true := by decide
theorem witness_NegComplements : (Operand.mk .register .r7).fetchable (code 0xFFFF []).pc = true := by decide
theorem witness_RotateThroughCarry : (Operand.mk .postInc .r7).fetchable (code 0xFFBE []).pc = true := by decide
theorem witness_ArithmeticShifts : (Operand.mk .preDecIndirect .r6).fetchable (code 0xFFC0 []).pc = true := by decide
theorem witness_AdcAddsCarry : (Operand.mk .indexed .r0).fetchable (code 0 []).pc = true := by decide
theorem witness_SbcSubtractsCarry : (Operand.mk .indirect .r3).fetchable (code 0x0102 []).pc = true := by decide

theorem witness_GeneralFrame :
    isGeneral (.ccc ⟨true, false, false, false⟩) = true ∧
    (∃ t, exec (.ccc ⟨true, false, false, false⟩) (code 0x0101 []) = .next t) ∧
    (writtenFlags (.ccc ⟨true, false, false, false⟩)).z = false ∧ Reg.r6 ∉ writtenRegs .nop := ⟨by decide, ⟨_, rfl⟩, by decide, by decide⟩

theorem witness_ControlFlowFrame :
    isControlFlow (.jsr .r5 ⟨.postIncIndirect, .r7⟩) = true ∧
    (∃ t, exec (.jsr .r5 ⟨.postIncIndirect, .r7⟩) beforeCall = .next t) ∧
    Reg.r0 ∉ writtenRegs (.jsr .r5 ⟨.postIncIndirect, .r7⟩) ∧
    (0xFFC1 : Word) ∉ storedBy (.jsr .r5 ⟨.postIncIndirect, .r7⟩) beforeCall :=
  ⟨by decide, ⟨_, rfl⟩, by decide, by decide⟩

theorem witness_OneOperandFrame :
    isOneOperand (.inc ⟨.postInc, .r1⟩) = true ∧
    (∃ t, exec (.inc ⟨.postInc, .r1⟩) ((code 0x0102 []).setReg .r1 0xFFBF) = .next t) ∧
    Reg.r2 ∉ writtenRegs (.inc ⟨.postInc, .r1⟩) ∧
    (0xFFC1 : Word) ∉ storedBy (.inc ⟨.postInc, .r1⟩) ((code 0x0102 []).setReg .r1 0xFFBF) ∧
    (0xFFC0 : Word) ∉ storedBy (.tst ⟨.postInc, .r1⟩) ((code 0x0102 []).setReg .r1 0xFFC0) :=
  ⟨by decide, ⟨_, rfl⟩, by decide, by decide, by decide⟩

theorem witness_TwoOperandFrame :
    isTwoOperand (.mov ⟨.postInc, .r1⟩ ⟨.indirect, .r1⟩) = true ∧
    (∃ t, exec (.mov ⟨.postInc, .r1⟩ ⟨.indirect, .r1⟩) ((code 0x0102 []).setReg .r1 0xFFBE) = .next t) ∧
    (writtenFlags (.mov ⟨.postInc, .r1⟩ ⟨.indirect, .r1⟩)).c = false ∧
    (0xFFBF : Word) ∉ storedBy (.mov ⟨.postInc, .r1⟩ ⟨.indirect, .r1⟩) ((code 0x0102 []).setReg .r1 0xFFBE) :=
  ⟨by decide, ⟨_, rfl⟩, by decide, by decide⟩

theorem witness_UndefinedFormsRefuse :
    Fetches (code 0xFFBF [0x3F]) ∧ (code 0xFFBF [0x3F]).pc.toNat < 0xFFC0 ∧
    (code 0xFFBF [0x3F]).byte (code 0xFFBF [0x3F]).pc ∈ reservedBytes :=
  ⟨fetches_reserved, by decide, by decide⟩

theorem witness_FetchInByteAreaRefuses :
    (Fetches (code 0xFFC0 []) ∧ 0xFFC0 ≤ (code 0xFFC0 []).pc.toNat) ∧
    Fetches (code 0xFFBF [0x31]) ∧ (code 0xFFBF [0x31]).pc = 0xFFBF ∧
    hasSecondByte ((code 0xFFBF [0x31]).byte (code 0xFFBF [0x31]).pc) = true :=
  ⟨⟨fetches_area, by decide⟩, fetches_cut, by decide, by decide⟩

/-- Both sides of the equivalence hold somewhere, and both fail somewhere. -/
theorem witness_ExecCompletesExactly :
    (∃ t, exec (.jmp ⟨.indexed, .r1⟩) (code 0xFFBE []) = .next t) ∧ (Instr.jmp ⟨.indexed, .r1⟩).wellFormed = true ∧
    extensionsFetchable (Instr.jmp ⟨.indexed, .r1⟩).operands (code 0xFFBE []).pc = true ∧
    extensionsFetchable (Instr.jmp ⟨.indexed, .r1⟩).operands (code 0xFFBF []).pc = false :=
  ⟨⟨_, rfl⟩, by decide, by decide, by decide⟩

/-- Each reason of the closed list is met. -/
theorem witness_StopsAreTheClosedList :
    step (code 0 [0x8C]) = .refused (.reservedOpcode 0x8C) ∧ step (code 0 [0x40, 0x01]) = .refused (.noAddress "JMP") ∧
    step (code 0 [0x67, 0x01]) = .refused (.noAddress "JSR") ∧
    step (code 0xFFFF []) = .refused (.fetchFromByteArea 0xFFFF) ∧
    step (code 0xFFBD [0x80, 0x19]) = .refused (.fetchFromByteArea 0xFFBF) := ⟨rfl, rfl, rfl, rfl, rfl⟩

/-- A two-byte and a one-byte instruction at the last address each fits at. -/
theorem witness_StepRunsDecodedInstr :
    (Fetches (code 0xFFBE [0x31, 0x80]) ∧ decode (bytesAtPc (code 0xFFBE [0x31, 0x80])) = .ok (.bne 0x80, []) ∧
      (code 0xFFBE [0x31, 0x80]).pc.toNat + (encode (.bne 0x80)).length ≤ 0xFFC0) ∧
    Fetches (code 0xFFBF [0xF0]) ∧ decode (bytesAtPc (code 0xFFBF [0xF0])) = .ok (.hlt, [0x00]) ∧
    (code 0xFFBF [0xF0]).pc.toNat + (encode .hlt).length ≤ 0xFFC0 :=
  ⟨⟨fetches_bne, by decide, by decide⟩, fetches_hlt, by decide, by decide⟩

/-- Taken for either source; not taken with IE clear, with IP set and with nothing pending. -/
theorem witness_InterruptTakenExactlyWhen :
    (pending 0x82 0x02).takesInterrupt = true ∧ (pending 0x81 0x01).takesInterrupt = true ∧
    (pending 0x83 0x83).processorMoves ∧ (pending 0x83 0x83).halted = false ∧
    (pending 0x03 0x03).takesInterrupt = false ∧ (pending 0x83 0x83).takesInterrupt = false ∧
    (pending 0x83 0x00).takesInterrupt = false ∧
    (pending 0x82 0x02).halt.processorMoves ∧ (pending 0x82 0x02).halt.halted = true :=
  ⟨by decide, by decide, rfl, by decide, by decide, by decide, by decide, rfl, by decide⟩

/-- Stacks on each side of the vector and of the 8-bit area. -/
theorem witness_InterruptEntryEffect :
    (pending 0x82 0x02).processorMoves ∧ (pending 0x82 0x02).halted = false ∧
    (pending 0x82 0x02).takesInterrupt = true ∧
    ((pending 0x82 0x02).setReg .r6 0xFFBE).takesInterrupt = true ∧
    (((pending 0x82 0x02).setReg .r6 0xFFBE).sp - 2).toNat < 0xFFBD ∧
    ((pending 0x82 0x02).setReg .r6 0xFFC2).takesInterrupt = true ∧
    0xFFC0 ≤ (((pending 0x82 0x02).setReg .r6 0xFFC2).sp - 2).toNat ∧
    ((pending 0x82 0x02).setReg .r6 0xFFC1).takesInterrupt = true ∧
    (((pending 0x82 0x02).setReg .r6 0xFFC1).sp - 2).toNat < 0xFFC0 :=
  ⟨rfl, by decide, by decide, by decide, by decide, by decide, by decide, by decide, by decide⟩

theorem witness_InterruptThenReturn :
    ∃ t, (pending 0x82 0x02).processorMoves ∧ (pending 0x82 0x02).halted = false ∧
      (pending 0x82 0x02).takesInterrupt = true ∧ ((pending 0x82 0x02).sp - 2).toNat < 0xFFC0 ∧
      step (pending 0x82 0x02) = .next t ∧ ((t.setPc 0x0454).setByte 0xFFD8 0).sp = t.sp ∧
      ((t.setPc 0x0454).setByte 0xFFD8 0).opRead t.sp = t.opRead t.sp :=
  ⟨_, rfl, by decide, by decide, by decide, rfl, by decide, by decide⟩

/-- Every value of `TIMER_MAY_FIRE` and `KEY_SET`, with a key in the set and one outside it. -/
theorem witness_DeviceTurns :
    ({ pending 0x82 0x00 with schedule := .move .timer (.free 0) } : State).schedule.head = .timer ∧
    (pending 0x82 0x00).config.hasInterrupts = true ∧ (pending 0x82 0x00).config.timerMayFire = .always ∧
    ((pending 0x82 0x00).setByte 0xFFD7 1).byte 0xFFD7 ≠ 0 ∧
    ({ pending 0x82 0x00 with schedule := .move (.key 0x41) .processorOnly } : State).schedule.head = .key 0x41 ∧
    (pending 0x82 0x00).config.keySet = .all ∧ (0x41 : Byte) ∈ ([0x41] : List Byte) ∧
    (0x42 : Byte) ∉ ([0x41] : List Byte) := by decide

/-- Each form of a schedule; whose move the `free` one gives is not known, and a halted
machine answers to each. -/
theorem witness_StepKeepsConfig :
    (∃ t, step ({ code 0x0100 [0x82, 0x01] with schedule := .move .processor (.free 3) } : State) = .next t) ∧
    (∃ t, step (code 0x0100 [0x82, 0x01]) = .next t) ∧
    ∃ t, step ({ (code 0x0100 [0x82, 0x01]).halt with schedule := .free 3 } : State) = .next t := by
  refine ⟨⟨_, rfl⟩, ⟨_, rfl⟩, ?_⟩
  unfold step nextMove
  split
  · exact ⟨_, rfl⟩
  · exact ⟨_, rfl⟩
  · exact ⟨_, rfl⟩

theorem witness_OnlyHltHalts :
    (∃ t, step (code 0x0100 [0xFF]) = .next t ∧ (code 0x0100 [0xFF]).halted = false ∧ t.halted = true) ∧
    ∃ t, step (code 0x0100 [0x00]).halt = .next t ∧ (code 0x0100 [0x00]).halt.halted = true :=
  ⟨⟨_, rfl, by decide, by decide⟩, _, rfl, by decide⟩

/-- At the last address six bytes fit at, with an interrupt pending. -/
theorem witness_PlacedInstrRuns :
    ((pending 0x82 0x02).setPc 0xFFBA).pc.toNat ≤ 0xFFBA ∧
    decodeTableWord 16 0x8203 = some (.inc ⟨.register, .r3⟩) ∧
    nextWith (step (((pending 0x82 0x02).setPc 0xFFBA).withFetchWord 16 0x8203))
      (fun t => decide (t.reg .r3 = 1) && decide (t.pc = 0xFFBC)) = true := by decide

end Sys2Proof.Tests
end

section
/-! One-byte instructions, whichever they are: how the decoder reads them and what a step that fetches one does
(30_encoding.md R50, R57). -/

namespace Sys2Proof

/-- A first byte without a second one is a whole instruction, and the bytes after it are left (R50). -/
theorem decode_of_oneByte {b1 : Byte} (h : hasSecondByte b1 = false) (rest : List Byte) :
    decode (b1 :: rest) = .ok (decodePair b1 0, rest) := by
  simp [decode, h]

namespace Machine

/-- Below FFC0h `FetchByte` gives the byte at R7 and moves R7 past it (R55). -/
theorem State.fetchByte_of_lt {s : State} (h : s.pc.toNat < 0xFFC0) :
    s.fetchByte = .ok (s.byte s.pc, s.setPc (s.pc + 1)) := by
  unfold State.fetchByte
  exact if_neg (Nat.not_le.mpr h)

theorem State.fetchInstr_of_oneByte {s : State} (hpc : s.pc.toNat < 0xFFC0)
    (h : hasSecondByte (s.byte s.pc) = false) :
    s.fetchInstr = .ok (decodePair (s.byte s.pc) 0, s.setPc (s.pc + 1)) := by
  simp [State.fetchInstr, State.fetchByte_of_lt hpc, h]

end Machine

namespace Claims

open Sys2Proof.Machine

/-- A step that fetches is fetch, decode and execute with the processor's move spent (R57). -/
theorem step_of_fetches {s : State} (h : Fetches s) : step s = runInstr s.afterSchedule := by
  obtain ⟨hmoves, hhalted, hint⟩ := h
  rw [step_of_processorMoves hmoves]
  simp [processorTurn, hhalted, hint]

/-- A step that fetches a one-byte instruction executes it with R7 one further (R57). -/
theorem step_of_oneByte {s : State} (hf : Fetches s) (hpc : s.pc.toNat < 0xFFC0)
    (h : hasSecondByte (s.byte s.pc) = false) :
    step s = exec (decodePair (s.byte s.pc) 0) (s.afterSchedule.setPc (s.pc + 1)) := by
  have hfetch : s.afterSchedule.fetchInstr =
      .ok (decodePair (s.byte s.pc) 0, s.afterSchedule.setPc (s.pc + 1)) :=
    State.fetchInstr_of_oneByte (s := s.afterSchedule) hpc h
  rw [step_of_fetches hf, runInstr, hfetch]

end Claims

end Sys2Proof
end

section
/-! NOP (41_general.md R90): the 16 first bytes of high nibble 0. -/

namespace Sys2Proof

theorem hasSecondByte_of_highNibble_zero {b1 : Byte} (h : highNibble b1 = 0) : hasSecondByte b1 = false := by
  simp [hasSecondByte, h]

theorem decodePair_of_highNibble_zero {b1 : Byte} (h : highNibble b1 = 0) (b2 : Byte) :
    decodePair b1 b2 = .nop := by
  simp [decodePair, h]

theorem decode_nop {b1 : Byte} (h : highNibble b1 = 0) (rest : List Byte) :
    decode (b1 :: rest) = .ok (.nop, rest) := by
  rw [decode_of_oneByte (hasSecondByte_of_highNibble_zero h), decodePair_of_highNibble_zero h]

theorem Machine.exec_nop (s : Machine.State) : Machine.exec .nop s = .next s := rfl

namespace Claims

open Sys2Proof.Machine

theorem step_nop {s : State} (hf : Fetches s) (hpc : s.pc.toNat < 0xFFC0)
    (h : highNibble (s.byte s.pc) = 0) : step s = .next (s.afterSchedule.setPc (s.pc + 1)) := by
  rw [step_of_oneByte hf hpc (hasSecondByte_of_highNibble_zero h), decodePair_of_highNibble_zero h, exec_nop]

/-- Settles O21: the first two parts are NOP's decoding and its arm of `exec`; a step that fetches one is the step
of a one-byte instruction, where that arm adds nothing to the fetch. -/
theorem nopOnlyAdvances : Obligations.NopOnlyAdvances :=
  ⟨fun _ rest h => decode_nop h rest, exec_nop, fun _ hf hpc h => step_nop hf hpc h⟩

end Claims

end Sys2Proof
end

section
/-! What the one-operand instructions share (45_one_operand.md R130): the encoding F1, the specifier that resolves
where its extension word can be fetched, and the result written back to the resolved location. -/

namespace Sys2Proof

/-- A first byte that has a second one is a whole instruction with it, and the bytes after it are left (R50). -/
theorem decode_of_twoBytes {b1 : Byte} (h : hasSecondByte b1 = true) (b2 : Byte) (rest : List Byte) :
    decode (b1 :: b2 :: rest) = .ok (decodePair b1 b2, rest) := by
  simp [decode, h]

theorem hasSecondByte_of_oneOperand {b1 : Byte} (hi : highNibble b1 = 8) (lo : lowNibble b1 < 12) :
    hasSecondByte b1 = true := by
  simp [hasSecondByte, hi, lo]

theorem decodePair_of_highNibble_eight {b1 : Byte} (hi : highNibble b1 = 8) (b2 : Byte) :
    decodePair b1 b2 = decodeOneOperand (lowNibble b1) (operandOf b2) := by
  simp [decodePair, hi]

namespace Claims

/-- The twelve assigned first bytes of high nibble 8 have format F1, their low nibble naming the instruction
(R51, R60). -/
theorem encodedF1_of_oneOperand {b1 : Byte} (hi : highNibble b1 = 8) (lo : lowNibble b1 < 12) :
    EncodedF1 b1 (decodeOneOperand (lowNibble b1)) := by
  intro b2 rest
  rw [decode_of_twoBytes (hasSecondByte_of_oneOperand hi lo), decodePair_of_highNibble_eight hi]
  rfl

end Claims

namespace Machine

/-- A specifier whose extension word can be fetched, if it has one, resolves: it has no other refusal (R86). -/
theorem resolve_of_fetchable {o : Operand} {s : State} (h : o.fetchable s.pc = true) :
    ∃ loc s1, resolve o s = .ok (loc, s1) := by
  cases hr : resolve o s with
  | ok p => exact ⟨p.1, p.2, rfl⟩
  | error e =>
    obtain ⟨hext, hpc, -⟩ := resolve_error hr
    simp [Operand.fetchable, hext, Nat.not_lt.mpr hpc] at h

/-- A one-operand instruction with its operand resolved writes what its operation makes of the operand and of the
flags before the instruction, which resolving leaves as they are (R130). -/
theorem oneOperand_of_resolve {o : Operand} {f : Word → Flags → Word × Flags} {s s1 : State} {loc : Loc}
    {res : Word} {fl : Flags} (hr : resolve o s = .ok (loc, s1)) (hf : f (s1.locRead loc) s.flags = (res, fl)) :
    oneOperand o f s = .next ((s1.locWrite loc res).setFlags fl) := by
  obtain ⟨-, hflags, -⟩ := resolve_ok hr
  simp [oneOperand, hr, hflags, hf]

/-- `SetNZ` by bits and values: N is bit 15 of the result, Z that the result is 0 (R129, D17). -/
theorem flagsOf_eq (res : Word) (v c : Bool) :
    flagsOf res v c = { n := res.getLsbD 15, z := decide (res = 0), v := v, c := c } := by
  simp [flagsOf, BitVec.msb_eq_getLsbD_last, beq_eq_decide]

end Machine

end Sys2Proof
end

section
/-! CLR, NOT and TST (45_one_operand.md R131, R132, R136). -/

namespace Sys2Proof

namespace Machine

theorem exec_clr (o : Operand) (s : State) : exec (.clr o) s = oneOperand o clrOp s := rfl
theorem exec_not (o : Operand) (s : State) : exec (.not o) s = oneOperand o notOp s := rfl
theorem exec_tst (o : Operand) (s : State) : exec (.tst o) s = oneOperand o tstOp s := rfl

theorem clrOp_eq (v : Word) (f : Flags) :
    clrOp v f = (0, { n := false, z := true, v := false, c := false }) := rfl

/-- The complement of a word is its distance from FFFFh, and is 0 for FFFFh alone. -/
theorem notOp_eq (v : Word) (f : Flags) :
    notOp v f = (0xFFFF - v, { n := !v.getLsbD 15, z := decide (v = 0xFFFF), v := false, c := true }) := by
  have hsub : 0xFFFF - v = ~~~v := BitVec.allOnes_sub_eq_not v
  have hzero : ~~~v = 0 ↔ v = 0xFFFF := BitVec.not_eq_comm
  rw [notOp, flagsOf_eq, hsub, decide_eq_decide.mpr hzero, BitVec.getLsbD_not]
  rfl

theorem tstOp_eq (v : Word) (f : Flags) :
    tstOp v f = (v, { n := v.getLsbD 15, z := decide (v = 0), v := false, c := false }) := by
  rw [tstOp, flagsOf_eq]

end Machine

namespace Claims

open Sys2Proof.Machine

/-- Settles O36: each instruction is the one-operand sequence with its own operation, whose result and flags
`clrOp_eq`, `notOp_eq` and `tstOp_eq` give. -/
theorem clrNotTst : Obligations.ClrNotTst := by
  refine ⟨encodedF1_of_oneOperand (b1 := 0x80) (by decide) (by decide),
    encodedF1_of_oneOperand (b1 := 0x81) (by decide) (by decide),
    encodedF1_of_oneOperand (b1 := 0x85) (by decide) (by decide), fun o s h => ?_⟩
  obtain ⟨loc, s1, hr⟩ := resolve_of_fetchable h
  exact ⟨loc, s1, hr,
    (exec_clr o s).trans (oneOperand_of_resolve hr (clrOp_eq _ _)),
    (exec_not o s).trans (oneOperand_of_resolve hr (notOp_eq _ _)),
    (exec_tst o s).trans (oneOperand_of_resolve hr (tstOp_eq _ _))⟩

end Claims

end Sys2Proof
end

section
/-! ROR and ROL (45_one_operand.md R137, R138): the 17-bit rotation of C and the operand. -/

namespace Sys2Proof

namespace Machine

theorem exec_ror (o : Operand) (s : State) : exec (.ror o) s = oneOperand o rorOp s := rfl
theorem exec_rol (o : Operand) (s : State) : exec (.rol o) s = oneOperand o rolOp s := rfl

/-- The flags of a shift by bits and values: V is the new N XOR the new C (R137 to R140). -/
theorem shiftResult_eq (res : Word) (out : Bool) :
    shiftResult res out =
      (res, { n := res.getLsbD 15, z := decide (res = 0), v := res.getLsbD 15 ^^ out, c := out }) := by
  rw [shiftResult, flagsOf_eq, BitVec.msb_eq_getLsbD_last]

/-- The word that puts C into place `k` of a rotated operand has that bit alone. -/
theorem getLsbD_ite_twoPow (c : Bool) {k : Nat} (hk : k < 16) (i : Nat) :
    (if c then BitVec.twoPow 16 k else 0).getLsbD i = (decide (k = i) && c) := by
  cases c <;> simp [BitVec.getLsbD_twoPow, hk]

/-- `C ‖ v[15:1]` is `v` shifted right with C put into bit 15 (R137). -/
theorem ofBool_append_high_bits (c : Bool) (v : Word) :
    BitVec.ofBool c ++ v.extractLsb' 1 15 = (v >>> 1) ||| (if c then 0x8000 else 0) := by
  refine BitVec.eq_of_getLsbD_eq fun i hi => ?_
  rw [BitVec.getLsbD_append, BitVec.getLsbD_or, BitVec.getLsbD_ushiftRight,
    show (0x8000 : Word) = BitVec.twoPow 16 15 from rfl, getLsbD_ite_twoPow c (by decide)]
  by_cases hlow : i < 15
  · have hne : 15 ≠ i := by omega
    simp [hlow, hne]
  · obtain rfl : i = 15 := by omega
    simp

/-- `v[14:0] ‖ C` is `v` shifted left with C put into bit 0 (R138). -/
theorem low_bits_append_ofBool (v : Word) (c : Bool) :
    v.extractLsb' 0 15 ++ BitVec.ofBool c = (v <<< 1) ||| (if c then 1 else 0) := by
  refine BitVec.eq_of_getLsbD_eq fun i hi => ?_
  rw [BitVec.getLsbD_append, BitVec.getLsbD_or, BitVec.getLsbD_shiftLeft,
    show (1 : Word) = BitVec.twoPow 16 0 from rfl, getLsbD_ite_twoPow c (by decide)]
  cases i with
  | zero => simp
  | succ j =>
    have hlow : j < 15 := by omega
    have hword : j + 1 < 16 := hi
    simp [hlow, hword]

/-- C enters at bit 15 and so is the new N; bit 0 goes to C (R137). -/
theorem rorOp_eq (v : Word) (f : Flags) :
    let right := (v >>> 1) ||| (if f.c then 0x8000 else 0)
    rorOp v f = (right, { n := f.c, z := decide (right = 0), v := f.c ^^ v.getLsbD 0, c := v.getLsbD 0 }) := by
  have hsign : (BitVec.ofBool f.c ++ v.extractLsb' 1 15).getLsbD 15 = f.c := by
    rw [BitVec.getLsbD_append]; simp
  rw [rorOp, shiftResult_eq, hsign, ofBool_append_high_bits]

/-- C enters at bit 0; bit 14 becomes the new N and bit 15 goes to C (R138). -/
theorem rolOp_eq (v : Word) (f : Flags) :
    let left := (v <<< 1) ||| (if f.c then 1 else 0)
    rolOp v f = (left,
      { n := v.getLsbD 14, z := decide (left = 0), v := v.getLsbD 14 ^^ v.getLsbD 15, c := v.getLsbD 15 }) := by
  have hsign : (v.extractLsb' 0 15 ++ BitVec.ofBool f.c).getLsbD 15 = v.getLsbD 14 := by
    rw [BitVec.getLsbD_append]; simp
  rw [rolOp, shiftResult_eq, hsign, low_bits_append_ofBool]

end Machine

namespace Claims

open Sys2Proof.Machine

/-- Settles O39: both are the one-operand sequence with a rotation, which reads the C from before the instruction;
`rorOp_eq` and `rolOp_eq` give the result by shifts and the flags. -/
theorem rotateThroughCarry : Obligations.RotateThroughCarry := by
  refine ⟨encodedF1_of_oneOperand (b1 := 0x86) (by decide) (by decide),
    encodedF1_of_oneOperand (b1 := 0x87) (by decide) (by decide), fun o s h => ?_⟩
  obtain ⟨loc, s1, hr⟩ := resolve_of_fetchable h
  exact ⟨loc, s1, hr,
    (exec_ror o s).trans (oneOperand_of_resolve hr (rorOp_eq _ _)),
    (exec_rol o s).trans (oneOperand_of_resolve hr (rolOp_eq _ _))⟩

end Claims

end Sys2Proof
end

section
/-! Fields of the instruction bytes (30_encoding.md R51, R52): what a field reads of bytes put together from fields,
and bytes put together again from the fields read. -/

namespace Sys2Proof

/-! ## Nibbles -/

@[simp] theorem highNibble_nibbles (hi lo : BitVec 4) : highNibble (nibbles hi lo) = hi.toNat :=
  congrArg BitVec.toNat BitVec.extractLsb'_append_eq_left

@[simp] theorem lowNibble_nibbles (hi lo : BitVec 4) : lowNibble (nibbles hi lo) = lo.toNat :=
  congrArg BitVec.toNat BitVec.extractLsb'_append_eq_right

/-- A field within the low nibble. -/
theorem extractLsb'_nibbles (hi lo : BitVec 4) {start len : Nat} (h : start + len ≤ 4) :
    (nibbles hi lo).extractLsb' start len = lo.extractLsb' start len :=
  BitVec.extractLsb'_append_eq_of_add_le h

theorem getLsbD_nibbles (hi lo : BitVec 4) {k : Nat} (h : k < 4) : (nibbles hi lo).getLsbD k = lo.getLsbD k :=
  BitVec.getLsbD_append.trans (if_pos h)

theorem nibbles_and (hi lo hi' lo' : BitVec 4) :
    nibbles hi lo &&& nibbles hi' lo' = nibbles (hi &&& hi') (lo &&& lo') := BitVec.and_append

/-- A byte is its two nibbles. -/
theorem nibbles_eq (b : Byte) : nibbles (b.extractLsb' 4 4) (b.extractLsb' 0 4) = b :=
  BitVec.extractLsb'_append_extractLsb' (w := 4) (len := 4)

/-- A byte of a known high nibble has only its low nibble left to know. -/
theorem exists_nibbles_of_highNibble {b : Byte} {k : Nat} (h : highNibble b = k) :
    ∃ lo, b = nibbles (BitVec.ofNat 4 k) lo := by
  refine ⟨b.extractLsb' 0 4, ?_⟩
  rw [← h, highNibble, BitVec.ofNat_toNat, BitVec.setWidth_eq, nibbles_eq]

theorem highNibble_lt (b : Byte) : highNibble b < 16 := BitVec.isLt _

/-- What holds of the 16 numbers below 16 holds of every nibble. -/
theorem forall_nibble {p : BitVec 4 → Prop} (h : ∀ n < 16, p (BitVec.ofNat 4 n)) (x : BitVec 4) : p x := by
  simpa using h x.toNat x.isLt

/-! ## Registers, modes and masks -/

@[simp] theorem Reg.ofBits_toBits (r : Reg) : Reg.ofBits r.toBits = r := by cases r <;> rfl
@[simp] theorem Mode.ofBits_toBits (m : Mode) : Mode.ofBits m.toBits = m := by cases m <;> rfl
@[simp] theorem Reg.toBits_ofBits : ∀ b : BitVec 3, (Reg.ofBits b).toBits = b := by decide
@[simp] theorem Mode.toBits_ofBits : ∀ b : BitVec 3, (Mode.ofBits b).toBits = b := by decide

theorem lregOf_nibbles (hi lo : BitVec 4) : lregOf (nibbles hi lo) = Reg.ofBits (lo.extractLsb' 0 3) := by
  rw [lregOf, extractLsb'_nibbles _ _ (by decide)]

@[simp] theorem lregOf_lregNibble (hi : BitVec 4) (r : Reg) : lregOf (nibbles hi (lregNibble r)) = r := by
  have hbits : (lregNibble r).extractLsb' 0 3 = r.toBits := BitVec.extractLsb'_append_eq_right
  rw [lregOf_nibbles, hbits, Reg.ofBits_toBits]

/-- A link register's field written back: its don't-care bit is 0 (R62). -/
theorem lregNibble_lregOf (hi lo : BitVec 4) : lregNibble (lregOf (nibbles hi lo)) = lo &&& 0x7 := by
  rw [lregOf_nibbles]
  revert lo
  decide

/-- The mask field of a first byte is its low nibble. -/
theorem maskOf_nibbles (hi lo : BitVec 4) :
    maskOf (nibbles hi lo) =
      { n := lo.getLsbD 3, z := lo.getLsbD 2, v := lo.getLsbD 1, c := lo.getLsbD 0 } := by
  simp only [maskOf, getLsbD_nibbles, Nat.reduceLT]

@[simp] theorem maskOf_maskNibble (hi : BitVec 4) (m : FlagMask) : maskOf (nibbles hi (maskNibble m)) = m := by
  rw [maskOf_nibbles]
  rcases m with ⟨_ | _, _ | _, _ | _, _ | _⟩ <;> rfl

theorem maskNibble_maskOf (hi lo : BitVec 4) : maskNibble (maskOf (nibbles hi lo)) = lo := by
  rw [maskOf_nibbles]
  revert lo
  decide

/-! ## Operand specifiers -/

theorem specifier_mode (x : BitVec 2) (m r : BitVec 3) : BitVec.extractLsb' (n := 8) 3 3 ((x ++ m) ++ r) = m :=
  (BitVec.extractLsb'_append_eq_of_le (w := 3) (Nat.le_refl 3)).trans BitVec.extractLsb'_append_eq_right

theorem specifier_reg (x : BitVec 2) (m r : BitVec 3) : BitVec.extractLsb' (n := 8) 0 3 ((x ++ m) ++ r) = r :=
  BitVec.extractLsb'_append_eq_right

theorem specifier_rest (x : BitVec 2) (m r : BitVec 3) : BitVec.extractLsb' (n := 8) 6 2 ((x ++ m) ++ r) = x :=
  (BitVec.extractLsb'_append_eq_of_le (w := 3) (by decide : 3 ≤ 6)).trans
    (BitVec.extractLsb'_append_eq_left (w := 2) (w' := 3))

/-- A second byte is its three fields `xx`, `mmm` and `rrr`. -/
theorem specifier_eq (b : Byte) : (b.extractLsb' 6 2 ++ b.extractLsb' 3 3) ++ b.extractLsb' 0 3 = b := by
  have hhigh : b.extractLsb' 6 2 ++ b.extractLsb' 3 3 = b.extractLsb' 3 5 :=
    BitVec.extractLsb'_append_extractLsb'_eq_extractLsb' rfl
  rw [hhigh]
  exact BitVec.extractLsb'_append_extractLsb' (w := 5) (len := 3)

@[simp] theorem operandOf_specifier (x : BitVec 2) (o : Operand) :
    operandOf ((x ++ o.mode.toBits) ++ o.reg.toBits) = o := by
  rw [operandOf, specifier_mode, specifier_reg, Mode.ofBits_toBits, Reg.ofBits_toBits]

@[simp] theorem operandOf_encodeOperand (o : Operand) : operandOf (encodeOperand o) = o := operandOf_specifier 0 o

/-- A specifier written back: its two don't-care bits are 0 (R62). -/
theorem encodeOperand_operandOf (b : Byte) : encodeOperand (operandOf b) = b &&& 0x3F := by
  rw [encodeOperand, operandOf, Mode.toBits_ofBits, Reg.toBits_ofBits]
  conv_rhs => rw [← specifier_eq b]
  symm
  calc (b.extractLsb' 6 2 ++ b.extractLsb' 3 3 ++ b.extractLsb' 0 3) &&& ((0#2 ++ 7#3) ++ 7#3)
      = ((b.extractLsb' 6 2 &&& 0#2) ++ (b.extractLsb' 3 3 &&& 7#3)) ++ (b.extractLsb' 0 3 &&& 7#3) := by
        rw [BitVec.and_append, BitVec.and_append]
    _ = 0#2 ++ b.extractLsb' 3 3 ++ b.extractLsb' 0 3 := by
        rw [BitVec.and_zero, show (7#3) = BitVec.allOnes 3 from rfl, BitVec.and_allOnes, BitVec.and_allOnes]

/-- The source field of F2 lies across the two bytes, its register split between them (R52, D11). -/
theorem sourceOf_specifier (hi : BitVec 4) (src : Operand) (m r : BitVec 3) :
    sourceOf (nibbles hi (src.mode.toBits ++ src.reg.toBits.extractLsb' 2 1))
      ((src.reg.toBits.extractLsb' 0 2 ++ m) ++ r) = src := by
  have hmode : (nibbles hi (src.mode.toBits ++ src.reg.toBits.extractLsb' 2 1)).extractLsb' 1 3 =
      src.mode.toBits :=
    (extractLsb'_nibbles _ _ (by decide)).trans (BitVec.extractLsb'_append_eq_left (w := 3) (w' := 1))
  have hbit : (nibbles hi (src.mode.toBits ++ src.reg.toBits.extractLsb' 2 1)).extractLsb' 0 1 =
      src.reg.toBits.extractLsb' 2 1 :=
    (extractLsb'_nibbles _ _ (by decide)).trans (BitVec.extractLsb'_append_eq_right (w := 3) (w' := 1))
  have hreg : src.reg.toBits.extractLsb' 2 1 ++ src.reg.toBits.extractLsb' 0 2 = src.reg.toBits :=
    BitVec.extractLsb'_append_extractLsb' (w := 1) (len := 2)
  rw [sourceOf, hmode, hbit, specifier_rest, hreg, Mode.ofBits_toBits, Reg.ofBits_toBits]

/-- The two bytes of an F2 instruction written back from the fields read (R51, R52). -/
theorem encodeTwo_fields (hi lo : BitVec 4) (b2 : Byte) :
    encodeTwo hi (sourceOf (nibbles hi lo) b2) (operandOf b2) = [nibbles hi lo, b2] := by
  have hreg : (lo.extractLsb' 0 1 ++ b2.extractLsb' 6 2).extractLsb' 2 1 = lo.extractLsb' 0 1 :=
    BitVec.extractLsb'_append_eq_left
  have hrest : (lo.extractLsb' 0 1 ++ b2.extractLsb' 6 2).extractLsb' 0 2 = b2.extractLsb' 6 2 :=
    BitVec.extractLsb'_append_eq_right
  have hlo : lo.extractLsb' 1 3 ++ lo.extractLsb' 0 1 = lo :=
    BitVec.extractLsb'_append_extractLsb' (w := 3) (len := 1)
  simp only [encodeTwo, sourceOf, operandOf, Mode.toBits_ofBits, Reg.toBits_ofBits,
    extractLsb'_nibbles _ _ (by decide : 1 + 3 ≤ 4), extractLsb'_nibbles _ _ (by decide : 0 + 1 ≤ 4)]
  rw [hreg, hrest, hlo, specifier_eq]

end Sys2Proof
end

section
/-! The decoder by the high nibble of the first byte (30_encoding.md R58), each value of it an equation. -/

namespace Sys2Proof

theorem decodePair_of_highNibble_one {b1 : Byte} (h : highNibble b1 = 1) (b2 : Byte) :
    decodePair b1 b2 = .ccc (maskOf b1) := by simp [decodePair, h]
theorem decodePair_of_highNibble_two {b1 : Byte} (h : highNibble b1 = 2) (b2 : Byte) :
    decodePair b1 b2 = .scc (maskOf b1) := by simp [decodePair, h]
theorem decodePair_of_highNibble_three {b1 : Byte} (h : highNibble b1 = 3) (b2 : Byte) :
    decodePair b1 b2 = decodeBranch (lowNibble b1) b2 := by simp [decodePair, h]
theorem decodePair_of_highNibble_four {b1 : Byte} (h : highNibble b1 = 4) (b2 : Byte) :
    decodePair b1 b2 = .jmp (operandOf b2) := by simp [decodePair, h]
theorem decodePair_of_highNibble_five {b1 : Byte} (h : highNibble b1 = 5) (b2 : Byte) :
    decodePair b1 b2 = .sob (lregOf b1) b2 := by simp [decodePair, h]
theorem decodePair_of_highNibble_six {b1 : Byte} (h : highNibble b1 = 6) (b2 : Byte) :
    decodePair b1 b2 = .jsr (lregOf b1) (operandOf b2) := by simp [decodePair, h]
theorem decodePair_of_highNibble_seven {b1 : Byte} (h : highNibble b1 = 7) (b2 : Byte) :
    decodePair b1 b2 = .rts (lregOf b1) := by simp [decodePair, h]
theorem decodePair_of_highNibble_fifteen {b1 : Byte} (h : highNibble b1 = 15) (b2 : Byte) :
    decodePair b1 b2 = .hlt := by simp [decodePair, h]

/-- The instruction of an F2 high nibble. -/
def twoOperandInstr (k : Nat) (src dst : Operand) : Instr :=
  match k with
  | 9 => .mov src dst
  | 10 => .add src dst
  | 11 => .sub src dst
  | 12 => .cmp src dst
  | 13 => .and src dst
  | _ => .or src dst

/-- The high nibbles 9 to 14 have format F2, each naming an instruction (R51, R58). -/
theorem decodePair_of_twoOperand {b1 : Byte} (h9 : 9 ≤ highNibble b1) (h14 : highNibble b1 ≤ 14) (b2 : Byte) :
    decodePair b1 b2 = twoOperandInstr (highNibble b1) (sourceOf b1 b2) (operandOf b2) := by
  unfold decodePair
  interval_cases highNibble b1 <;> rfl

end Sys2Proof
end

section
/-! The encoder and the decoder are inverse to each other, up to don't-care bits (30_encoding.md sections 1, 4
and 5). -/

namespace Sys2Proof

/-! ## The groups of instructions, encoded -/

/-- The branches' first bytes: low nibble 15 is unassigned and a single byte (R59, R63). -/
theorem encode_decodeBranch (d : Byte) : ∀ lo : BitVec 4,
    encode (decodeBranch lo.toNat d) = if lo.toNat < 15 then [nibbles 0x3 lo, d] else [nibbles 0x3 lo] := by
  refine forall_nibble fun n hn => ?_
  interval_cases n <;> rfl

/-- The first bytes of the one-operand group: low nibbles 12 to 15 are unassigned and single bytes (R60, R63). -/
theorem encode_decodeOneOperand (o : Operand) : ∀ lo : BitVec 4,
    encode (decodeOneOperand lo.toNat o) =
      if lo.toNat < 12 then [nibbles 0x8 lo, encodeOperand o] else [nibbles 0x8 lo] := by
  refine forall_nibble fun n hn => ?_
  interval_cases n <;> rfl

theorem encode_twoOperandInstr (src dst : Operand) : ∀ hi : BitVec 4, 9 ≤ hi.toNat → hi.toNat ≤ 14 →
    encode (twoOperandInstr hi.toNat src dst) = encodeTwo hi src dst := by
  refine forall_nibble fun n hn h9 h14 => ?_
  rw [BitVec.toNat_ofNat, Nat.mod_eq_of_lt hn] at h9 h14
  interval_cases n <;> rfl

theorem hasSecondByte_of_twoOperand {b1 : Byte} (h9 : 9 ≤ highNibble b1) (h14 : highNibble b1 ≤ 14) :
    hasSecondByte b1 = true := by
  unfold hasSecondByte
  interval_cases highNibble b1 <;> rfl

/-! ## Decoding what was encoded -/

theorem decode_encode_oneByte {i : Instr} {b1 : Byte} (he : encode i = [b1]) (h : hasSecondByte b1 = false)
    (hd : decodePair b1 0 = i) (rest : List Byte) : decode (encode i ++ rest) = .ok (i, rest) := by
  rw [he, List.cons_append, List.nil_append, decode_of_oneByte h, hd]

theorem decode_encode_twoBytes {i : Instr} {b1 b2 : Byte} (he : encode i = [b1, b2])
    (h : hasSecondByte b1 = true) (hd : decodePair b1 b2 = i) (rest : List Byte) :
    decode (encode i ++ rest) = .ok (i, rest) := by
  rw [he, List.cons_append, List.cons_append, List.nil_append, decode_of_twoBytes h, hd]

/-- The one-operand instruction of a sub-opcode `lo` reads back: its second byte is the specifier (R51, R60). -/
theorem decode_encode_oneOperand (lo : BitVec 4) (hlo : lo.toNat < 12) (o : Operand) (rest : List Byte) :
    decode (encode (decodeOneOperand lo.toNat o) ++ rest) = .ok (decodeOneOperand lo.toNat o, rest) := by
  have h8 : highNibble (nibbles 0x8 lo) = 8 := highNibble_nibbles _ _
  refine decode_encode_twoBytes ((encode_decodeOneOperand o lo).trans (if_pos hlo))
    (hasSecondByte_of_oneOperand h8 (by simpa using hlo)) ?_ rest
  rw [decodePair_of_highNibble_eight h8, lowNibble_nibbles, operandOf_encodeOperand]

/-- The two-operand instruction of a first nibble `hi` reads back: its specifiers fill the rest (R51, R52). -/
theorem decode_encode_twoOperand (hi : BitVec 4) (h9 : 9 ≤ hi.toNat) (h14 : hi.toNat ≤ 14) (src dst : Operand)
    (rest : List Byte) :
    decode (encode (twoOperandInstr hi.toNat src dst) ++ rest) = .ok (twoOperandInstr hi.toNat src dst, rest) := by
  refine decode_encode_twoBytes (encode_twoOperandInstr src dst hi h9 h14)
    (hasSecondByte_of_twoOperand (by simpa using h9) (by simpa using h14)) ?_ rest
  rw [decodePair_of_twoOperand (by simpa using h9) (by simpa using h14), highNibble_nibbles, sourceOf_specifier,
    operandOf_specifier]

/-- The decoder reads back what the encoder writes, whatever bytes follow: where no field is looked at both sides
compute, and elsewhere each field reads back. -/
theorem decode_encode (i : Instr) (rest : List Byte) : decode (encode i ++ rest) = .ok (i, rest) := by
  cases i with
  | nop | hlt | reserved3F | reserved8C | reserved8D | reserved8E | reserved8F => rfl
  | br d | bne d | beq d | bpl d | bmi d | bvc d | bvs d | bcc d | bcs d => rfl
  | bge d | blt d | bgt d | ble d | bhi d | bls d => rfl
  | ccc m =>
    exact decode_encode_oneByte rfl (by simp [hasSecondByte])
      (by rw [decodePair_of_highNibble_one (by simp), maskOf_maskNibble]) rest
  | scc m =>
    exact decode_encode_oneByte rfl (by simp [hasSecondByte])
      (by rw [decodePair_of_highNibble_two (by simp), maskOf_maskNibble]) rest
  | jmp t =>
    exact decode_encode_twoBytes rfl (by simp [hasSecondByte])
      (by rw [decodePair_of_highNibble_four (by simp), operandOf_encodeOperand]) rest
  | sob r d =>
    exact decode_encode_twoBytes rfl (by simp [hasSecondByte])
      (by rw [decodePair_of_highNibble_five (by simp), lregOf_lregNibble]) rest
  | jsr r t =>
    exact decode_encode_twoBytes rfl (by simp [hasSecondByte])
      (by rw [decodePair_of_highNibble_six (by simp), lregOf_lregNibble, operandOf_encodeOperand]) rest
  | rts r =>
    exact decode_encode_oneByte rfl (by simp [hasSecondByte])
      (by rw [decodePair_of_highNibble_seven (by simp), lregOf_lregNibble]) rest
  | clr o => exact decode_encode_oneOperand 0 (by decide) o rest
  | not o => exact decode_encode_oneOperand 1 (by decide) o rest
  | inc o => exact decode_encode_oneOperand 2 (by decide) o rest
  | dec o => exact decode_encode_oneOperand 3 (by decide) o rest
  | neg o => exact decode_encode_oneOperand 4 (by decide) o rest
  | tst o => exact decode_encode_oneOperand 5 (by decide) o rest
  | ror o => exact decode_encode_oneOperand 6 (by decide) o rest
  | rol o => exact decode_encode_oneOperand 7 (by decide) o rest
  | asr o => exact decode_encode_oneOperand 8 (by decide) o rest
  | asl o => exact decode_encode_oneOperand 9 (by decide) o rest
  | adc o => exact decode_encode_oneOperand 10 (by decide) o rest
  | sbc o => exact decode_encode_oneOperand 11 (by decide) o rest
  | mov s d => exact decode_encode_twoOperand 9 (by decide) (by decide) s d rest
  | add s d => exact decode_encode_twoOperand 10 (by decide) (by decide) s d rest
  | sub s d => exact decode_encode_twoOperand 11 (by decide) (by decide) s d rest
  | cmp s d => exact decode_encode_twoOperand 12 (by decide) (by decide) s d rest
  | and s d => exact decode_encode_twoOperand 13 (by decide) (by decide) s d rest
  | or s d => exact decode_encode_twoOperand 14 (by decide) (by decide) s d rest

/-- The encoder is injective: the decoder tells two instructions apart by their bytes. -/
theorem encode_injective : Function.Injective encode := by
  intro i j h
  have hij : decode (encode i ++ []) = decode (encode j ++ []) := by rw [h]
  rw [decode_encode, decode_encode] at hij
  exact (Prod.mk.inj (Except.ok.inj hij)).1

/-! ## Encoding what was decoded -/

/-- Every bit of a two-operand instruction's bytes is written back. -/
theorem encode_decodePair_of_twoOperand {b1 : Byte} (h9 : 9 ≤ highNibble b1) (h14 : highNibble b1 ≤ 14)
    (b2 : Byte) : encode (decodePair b1 b2) = [b1, b2] := by
  rw [decodePair_of_twoOperand h9 h14]
  rw [← nibbles_eq b1] at h9 h14 ⊢
  rw [highNibble_nibbles] at h9 h14 ⊢
  rw [encode_twoOperandInstr _ _ _ h9 h14, encodeTwo_fields]

@[simp] theorem nibbles_and_F0 (hi lo : BitVec 4) : nibbles hi lo &&& 0xF0#8 = nibbles hi 0 := by
  rw [show 0xF0#8 = nibbles (BitVec.allOnes 4) 0 from rfl, nibbles_and, BitVec.and_allOnes]
  exact congrArg _ BitVec.and_zero

@[simp] theorem nibbles_and_F7 (hi lo : BitVec 4) : nibbles hi lo &&& 0xF7#8 = nibbles hi (lo &&& 0x7) := by
  rw [show 0xF7#8 = nibbles (BitVec.allOnes 4) 0x7 from rfl, nibbles_and, BitVec.and_allOnes]

@[simp] theorem byte_and_FF (b : Byte) : b &&& 0xFF#8 = b := BitVec.and_allOnes

namespace Claims

/-- The encoder writes back the bytes the decoder read, with 0 in the bits it did not look at. -/
theorem encode_decodePair (b1 b2 : Byte) :
    encode (decodePair b1 b2) =
      if hasSecondByte b1 then [b1 &&& careFirst b1, b2 &&& careSecond b1] else [b1 &&& careFirst b1] := by
  have hlt := highNibble_lt b1
  by_cases htwo : 9 ≤ highNibble b1 ∧ highNibble b1 ≤ 14
  · obtain ⟨h9, h14⟩ := htwo
    have hfirst : careFirst b1 = 0xFF#8 := by unfold careFirst; interval_cases highNibble b1 <;> rfl
    have hsecond : careSecond b1 = 0xFF#8 := by unfold careSecond; interval_cases highNibble b1 <;> rfl
    rw [encode_decodePair_of_twoOperand h9 h14, hasSecondByte_of_twoOperand h9 h14, if_pos rfl, hfirst, hsecond,
      byte_and_FF, byte_and_FF]
  · have hcases : highNibble b1 < 9 ∨ highNibble b1 = 15 := by omega
    obtain ⟨k, hk⟩ : ∃ k, highNibble b1 = k := ⟨_, rfl⟩
    have h := hk
    obtain ⟨lo, rfl⟩ := exists_nibbles_of_highNibble hk
    rw [hk] at hcases
    rw [hasSecondByte, careFirst, careSecond, h]
    match k with
    | 0 => rw [decodePair_of_highNibble_zero h]; simp [encode]
    | 1 => rw [decodePair_of_highNibble_one h]; simp [encode, maskNibble_maskOf]
    | 2 => rw [decodePair_of_highNibble_two h]; simp [encode, maskNibble_maskOf]
    | 3 => rw [decodePair_of_highNibble_three h, lowNibble_nibbles, encode_decodeBranch]; simp
    | 4 => rw [decodePair_of_highNibble_four h]; simp [encode, encodeOperand_operandOf]
    | 5 => rw [decodePair_of_highNibble_five h]; simp [encode, lregNibble_lregOf]
    | 6 => rw [decodePair_of_highNibble_six h]; simp [encode, lregNibble_lregOf, encodeOperand_operandOf]
    | 7 => rw [decodePair_of_highNibble_seven h]; simp [encode, lregNibble_lregOf]
    | 8 =>
      rw [decodePair_of_highNibble_eight h, lowNibble_nibbles, encode_decodeOneOperand]
      simp [encodeOperand_operandOf]
    | 15 => rw [decodePair_of_highNibble_fifteen h]; simp [encode]

/-! ## The don't-care bits -/

/-- Whether a second byte follows shows in the bits of the first byte the decoder looks at. -/
theorem hasSecondByte_and_careFirst : ∀ b1 : Byte, hasSecondByte (b1 &&& careFirst b1) = hasSecondByte b1 := by
  decide

/-- Equal bytes up to don't-care bits encode the same instruction, and the encoder is injective. -/
theorem decodePair_eq_of_care {b1 b2 b1' b2' : Byte} (h1 : b1 &&& careFirst b1 = b1' &&& careFirst b1')
    (h2 : b2 &&& careSecond b1 = b2' &&& careSecond b1') : decodePair b1 b2 = decodePair b1' b2' := by
  have hlen : hasSecondByte b1 = hasSecondByte b1' := by
    rw [← hasSecondByte_and_careFirst b1, h1, hasSecondByte_and_careFirst]
  apply encode_injective
  rw [encode_decodePair, encode_decodePair, hlen, h1, h2]

theorem highNibble_eq_div : ∀ b : Byte, highNibble b = b.toNat / 16 := by decide

/-! ## The unassigned first bytes -/

theorem isReserved_decodeBranch (d : Byte) : ∀ lo : BitVec 4,
    (isReserved (decodeBranch lo.toNat d) = true ↔ nibbles 0x3 lo ∈ reservedBytes) := by
  refine forall_nibble fun n hn => ?_
  interval_cases n <;> exact decide_eq_decide.mp rfl

theorem isReserved_decodeOneOperand (o : Operand) : ∀ lo : BitVec 4,
    (isReserved (decodeOneOperand lo.toNat o) = true ↔ nibbles 0x8 lo ∈ reservedBytes) := by
  refine forall_nibble fun n hn => ?_
  interval_cases n <;> exact decide_eq_decide.mp rfl

theorem highNibble_of_mem_reservedBytes : ∀ b ∈ reservedBytes, highNibble b = 3 ∨ highNibble b = 8 := by decide

/-- Outside the two groups every instruction has a meaning (R58). -/
theorem isReserved_of_highNibble {b1 : Byte} (h3 : highNibble b1 ≠ 3) (h8 : highNibble b1 ≠ 8) (b2 : Byte) :
    isReserved (decodePair b1 b2) = false := by
  have hlt := highNibble_lt b1
  unfold decodePair
  interval_cases highNibble b1 <;> simp_all [isReserved]

theorem isReserved_decodePair (b1 b2 : Byte) : isReserved (decodePair b1 b2) = true ↔ b1 ∈ reservedBytes := by
  by_cases h3 : highNibble b1 = 3
  · obtain ⟨lo, rfl⟩ := exists_nibbles_of_highNibble h3
    rw [decodePair_of_highNibble_three h3, lowNibble_nibbles]
    exact isReserved_decodeBranch b2 lo
  · by_cases h8 : highNibble b1 = 8
    · obtain ⟨lo, rfl⟩ := exists_nibbles_of_highNibble h8
      rw [decodePair_of_highNibble_eight h8, lowNibble_nibbles]
      exact isReserved_decodeOneOperand _ lo
    · have hmem : b1 ∉ reservedBytes := fun h => (highNibble_of_mem_reservedBytes b1 h).elim h3 h8
      simp [isReserved_of_highNibble h3 h8, hmem]

/-! ## The statements -/

/-- Settles O1: instruction by instruction, each field of the encoding reads back. -/
theorem decodeInvertsEncode : Obligations.DecodeInvertsEncode := decode_encode

/-- Settles O2: by the high nibble of the first byte, each field read is written back. -/
theorem encodeInvertsDecode : Obligations.EncodeInvertsDecode := encode_decodePair

/-- Settles O3: the bits that are looked at determine the encoding of the instruction, hence the instruction; the
named ranges are the first bytes of one high nibble. -/
theorem dontCareBitsIgnored : Obligations.DontCareBitsIgnored := by
  refine ⟨fun _ _ _ _ => decodePair_eq_of_care, fun b1 b2 h => ?_, fun b1 b2 h => ?_, fun k b2 => ⟨?_, ?_⟩⟩
  · refine decodePair_of_highNibble_zero ?_ b2
    rw [highNibble_eq_div]
    omega
  · refine decodePair_of_highNibble_fifteen ?_ b2
    rw [highNibble_eq_div]
    omega
  · have hk : highNibble (0x70 + k.setWidth 8) = 7 ∧ lregOf (0x70 + k.setWidth 8) = Reg.ofBits k := by
      revert k; decide
    rw [decodePair_of_highNibble_seven hk.1, hk.2]
  · have hk : highNibble (0x78 + k.setWidth 8) = 7 ∧ lregOf (0x78 + k.setWidth 8) = Reg.ofBits k := by
      revert k; decide
    rw [decodePair_of_highNibble_seven hk.1, hk.2]

/-- Settles O4: a list of two bytes always decodes, and to a reserved constructor exactly in the two groups that have
unassigned low nibbles. -/
theorem onlyFiveFirstBytesUnassigned : Obligations.OnlyFiveFirstBytesUnassigned := by
  intro b1 b2 rest
  cases h : hasSecondByte b1 with
  | true => exact ⟨_, _, decode_of_twoBytes h b2 rest, isReserved_decodePair b1 b2⟩
  | false => exact ⟨_, _, decode_of_oneByte h (b2 :: rest), isReserved_decodePair b1 0⟩

/-- Settles O5: the decoder computes on the seven byte strings. -/
theorem sampleWordsDecode : Obligations.SampleWordsDecode := by
  unfold Obligations.SampleWordsDecode
  decide

end Claims

end Sys2Proof
end

section
/-! Operand accesses on either side of FFC0h (20_memory.md R29, R30): what is stored, what is read and what is read
back. -/

namespace Sys2Proof.Machine

/-! ## Which access an address has -/

theorem inByteArea_of_lt {a : Word} (h : a.toNat < 0xFFC0) : inByteArea a = false :=
  decide_eq_false (Nat.not_le.mpr h)
theorem inByteArea_of_ge {a : Word} (h : 0xFFC0 ≤ a.toNat) : inByteArea a = true := decide_eq_true h

theorem State.opWrite_of_lt (s : State) {a : Word} (v : Word) (h : a.toNat < 0xFFC0) :
    s.opWrite a v = s.setMemWord a v := by simp [State.opWrite, inByteArea_of_lt h]
theorem State.opWrite_of_ge (s : State) {a : Word} (v : Word) (h : 0xFFC0 ≤ a.toNat) :
    s.opWrite a v = s.setByte a (lowByte v) := by simp [State.opWrite, inByteArea_of_ge h]
theorem State.opRead_of_lt (s : State) {a : Word} (h : a.toNat < 0xFFC0) : s.opRead a = s.memWord a := by
  simp [State.opRead, inByteArea_of_lt h]
theorem State.opRead_of_ge (s : State) {a : Word} (h : 0xFFC0 ≤ a.toNat) :
    s.opRead a = (s.byte a).setWidth 16 := by simp [State.opRead, inByteArea_of_ge h]
theorem storedAddresses_of_lt {a : Word} (h : a.toNat < 0xFFC0) : storedAddresses a = [a, a + 1] := by
  simp [storedAddresses, inByteArea_of_lt h]
theorem storedAddresses_of_ge {a : Word} (h : 0xFFC0 ≤ a.toNat) : storedAddresses a = [a] := by
  simp [storedAddresses, inByteArea_of_ge h]

/-! ## Read after write -/

/-- A word is its high byte and its low byte. -/
theorem highByte_append_lowByte (v : Word) : highByte v ++ lowByte v = v :=
  BitVec.extractLsb'_append_extractLsb' (w := 8) (len := 8)

/-- A word stored is the word read (R25, R26). -/
theorem State.memWord_setMemWord (s : State) (a v : Word) : (s.setMemWord a v).memWord a = v := by
  rw [State.memWord, State.byte_setMemWord, State.byte_setMemWord, if_pos rfl, if_pos rfl,
    if_neg (word_succ_ne a).symm, highByte_append_lowByte]

/-- A low byte read back as a word (R29, R30). -/
theorem setWidth_lowByte (v : Word) : (lowByte v).setWidth 16 = BitVec.ofNat 16 (v.toNat % 256) := by
  apply BitVec.eq_of_toNat_eq
  simp [lowByte]

/-- An operand read back is the one written, or its low byte in the 8-bit area. -/
theorem State.opRead_opWrite (s : State) (a v : Word) :
    (s.opWrite a v).opRead a = if a.toNat < 0xFFC0 then v else BitVec.ofNat 16 (v.toNat % 256) := by
  by_cases h : a.toNat < 0xFFC0
  · rw [if_pos h, State.opRead_of_lt _ h, State.opWrite_of_lt s v h, State.memWord_setMemWord]
  · have hge : 0xFFC0 ≤ a.toNat := Nat.not_lt.mp h
    rw [if_neg h, State.opRead_of_ge _ hge, State.opWrite_of_ge s v hge, State.byte_setByte_same, setWidth_lowByte]

end Sys2Proof.Machine

namespace Sys2Proof.Claims

open Sys2Proof.Machine

/-- Settles O13: `OpWrite` is a word store below FFC0h and a byte store above, and neither touches the rest. -/
theorem operandWriteStoresBytes : Obligations.OperandWriteStoresBytes := by
  intro s a v t
  refine ⟨fun h => ?_, fun h => ?_, State.opWrite_regs s a v, State.opWrite_flags s a v, State.opWrite_halted s a v⟩
  · have ht : t = s.setMemWord a v := State.opWrite_of_lt s v h
    rw [ht]
    refine ⟨?_, ?_, fun b hb hb' => ?_⟩ <;> rw [State.byte_setMemWord]
    · rw [if_neg (word_succ_ne a).symm, if_pos rfl, highByte]
    · rw [if_pos rfl, lowByte]
    · rw [if_neg hb', if_neg hb]
  · have ht : t = s.setByte a (lowByte v) := State.opWrite_of_ge s v h
    rw [ht]
    exact ⟨State.byte_setByte_same s a _, fun b hb => State.byte_setByte_other s _ hb⟩

/-- Settles O14. -/
theorem operandReadAfterWrite : Obligations.OperandReadAfterWrite := State.opRead_opWrite

end Sys2Proof.Claims
end

section
/-! Canonical memories (assumption log 9): a list in the form has exactly the cells that read unlike the reset
contents, so what memory reads determines the list. -/

namespace Sys2Proof.Machine

/-- In a list of rising addresses every cell is the first of its address. -/
theorem lookup_of_mem {l : List Host.Cell} (hl : l.Pairwise (fun x y => x.1 < y.1)) {c : Host.Cell} (hc : c ∈ l) :
    lookup l c.1 = c.2 := by
  induction l with
  | nil => cases hc
  | cons d l ih =>
    obtain ⟨hd, hl⟩ := List.pairwise_cons.mp hl
    rcases List.mem_cons.mp hc with rfl | hmem
    · exact if_pos rfl
    · exact (if_neg (Nat.ne_of_lt (hd c hmem))).trans (ih hl hmem)

/-- An address that reads unlike the reset contents is listed with what it reads. -/
theorem mem_of_lookup {l : List Host.Cell} {a : Nat} (h : lookup l a ≠ initialByte a) : (a, lookup l a) ∈ l := by
  induction l with
  | nil => exact absurd rfl h
  | cons d l ih =>
    by_cases hd : d.1 = a
    · subst hd
      simp [lookup]
    · have htail : lookup (d :: l) a = lookup l a := if_neg hd
      rw [htail] at h ⊢
      exact List.mem_cons_of_mem d (ih h)

/-- The cells of a canonical memory, in terms of what it reads. -/
theorem Memory.mem_cells_iff {m : Memory} (h : m.wf) (c : Host.Cell) :
    c ∈ m.cells ↔ c.1 < 65536 ∧ m.read (BitVec.ofNat 16 c.1) = c.2 ∧ c.2 ≠ initialByte c.1 := by
  obtain ⟨hrising, hcell⟩ := h
  have hread (hlt : c.1 < 65536) : m.read (BitVec.ofNat 16 c.1) = lookup m.cells c.1 := by
    rw [Memory.read, BitVec.toNat_ofNat, Nat.mod_eq_of_lt hlt]
  constructor
  · intro hc
    obtain ⟨hlt, hne⟩ := hcell c hc
    exact ⟨hlt, (hread hlt).trans (lookup_of_mem hrising hc), hne⟩
  · rintro ⟨hlt, hval, hne⟩
    rw [hread hlt] at hval
    have hmem := mem_of_lookup (l := m.cells) (a := c.1) (by rwa [hval])
    rwa [hval] at hmem

theorem nodup_of_rising {l : List Host.Cell} (hl : l.Pairwise (fun x y => x.1 < y.1)) : l.Nodup :=
  List.Pairwise.imp (fun {x y} (hlt : x.1 < y.1) (heq : x = y) => Nat.ne_of_lt hlt (congrArg Prod.fst heq)) hl

/-- Two canonical memories that read alike are the same data. -/
theorem Memory.ext_read {m m' : Memory} (h : m.wf) (h' : m'.wf) (hread : ∀ a, m.read a = m'.read a) : m = m' := by
  have hmem (c : Host.Cell) : c ∈ m.cells ↔ c ∈ m'.cells := by
    rw [Memory.mem_cells_iff h, Memory.mem_cells_iff h', hread]
  have hperm : m.cells.Perm m'.cells :=
    (List.perm_ext_iff_of_nodup (nodup_of_rising h.1) (nodup_of_rising h'.1)).mpr hmem
  have hcells : m.cells = m'.cells :=
    hperm.eq_of_pairwise (fun x y _ _ hxy hyx => absurd hxy (Nat.lt_asymm hyx)) h.1 h'.1
  cases m
  cases m'
  exact congrArg Memory.mk hcells

end Sys2Proof.Machine

namespace Sys2Proof.Claims

open Sys2Proof.Machine

/-- Settles O15. -/
theorem equalReadsEqualMemories : Obligations.EqualReadsEqualMemories := fun _ _ => Memory.ext_read

/-- Settles O17. -/
theorem resetMemoryCanonical : Obligations.ResetMemoryCanonical := State.reset_mem_wf

end Sys2Proof.Claims
end

section
/-! Registers, the launch state, the address map and the display. -/

namespace Sys2Proof.Machine

theorem Region.holds_iff (g : Region) (a : Word) : g.holds a = true ↔ g.first ≤ a.toNat ∧ a.toNat ≤ g.last := by
  simp [Region.holds]

/-- No two ranges of the map share an address (R35). -/
theorem addressMap_disjoint :
    ∀ g ∈ addressMap, ∀ g' ∈ addressMap, g' = g ∨ g.last < g'.first ∨ g'.last < g.first := by decide

theorem addressMap_unique {a : Word} {g g' : Region} (hg : g ∈ addressMap) (hg' : g' ∈ addressMap)
    (h : g.holds a = true) (h' : g'.holds a = true) : g' = g := by
  rw [Region.holds_iff] at h h'
  rcases addressMap_disjoint g hg g' hg' with heq | hlt | hlt
  · exact heq
  all_goals omega

/-- Every address lies in a range of the map. -/
theorem exists_region (a : Word) : ∃ g ∈ addressMap, g.holds a = true := by
  have hlt : a.toNat < 65536 := a.isLt
  simp only [addressMap, List.exists_mem_cons_iff, Region.holds_iff, List.not_mem_nil, false_and, exists_false]
  omega

/-! ## The display -/

/-- The address of a display position (R159). -/
theorem toNat_displayAddress {k : Nat} (h : k < 36) : (BitVec.ofNat 16 (0xFFDC + k)).toNat = 0xFFDC + k := by
  rw [BitVec.toNat_ofNat, Nat.mod_eq_of_lt (by omega)]

@[simp] theorem State.length_display (s : State) : s.display.length = 36 := rfl

theorem State.getElem_display (s : State) (k : Nat) (h : k < s.display.length) :
    s.display[k] = s.byte (BitVec.ofNat 16 (0xFFDC + k)) := by
  simp [State.display, displayAddresses]

/-- A byte stored at a display position shows there, and the other positions stay. -/
theorem State.display_setByte (s : State) {k : Nat} (hk : k < 36) (b : Byte) :
    (s.setByte (BitVec.ofNat 16 (0xFFDC + k)) b).display = s.display.set k b := by
  refine List.ext_getElem (by simp) fun j hj _ => ?_
  rw [State.getElem_display, List.getElem_set, State.byte_setByte, State.getElem_display]
  have hj' : j < 36 := hj
  have hiff : BitVec.ofNat 16 (0xFFDC + j) = BitVec.ofNat 16 (0xFFDC + k) ↔ k = j := by
    rw [← BitVec.toNat_inj, toNat_displayAddress hk, toNat_displayAddress hj']
    omega
  simp only [hiff]

/-- Two states with the same bytes from FFDCh up show the same. -/
theorem State.display_congr {s t : State} (h : ∀ a : Word, 0xFFDC ≤ a.toNat → t.byte a = s.byte a) :
    t.display = s.display := by
  refine List.ext_getElem (by simp) fun k hk _ => ?_
  rw [State.getElem_display, State.getElem_display]
  exact h _ (by rw [toNat_displayAddress hk]; omega)

/-- An operand below the display stores no byte of it, the two bytes at FFBFh included. -/
theorem not_mem_storedAddresses_of_lt {a b : Word} (ha : a.toNat < 0xFFDC) (hb : 0xFFDC ≤ b.toNat) :
    b ∉ storedAddresses a := by
  have hne : b ≠ a := fun h => by subst h; omega
  by_cases hlt : a.toNat < 0xFFC0
  · have hne' : b ≠ a + 1 := fun h => by subst h; bv_omega
    rw [storedAddresses_of_lt hlt, List.mem_pair]
    exact fun h => h.elim hne hne'
  · rw [storedAddresses_of_ge (Nat.not_lt.mp hlt), List.mem_singleton]
    exact hne

end Sys2Proof.Machine

namespace Sys2Proof.Claims

open Sys2Proof.Machine

/-- Settles O7. -/
theorem registersAreEightPlainWords : Obligations.RegistersAreEightPlainWords :=
  ⟨rfl, State.reg_setReg⟩

/-- Settles O19: the memory after reset lists no byte, so each reads as `initialByte` says. -/
theorem resetIsSuggestedLaunchState : Obligations.ResetIsSuggestedLaunchState := by
  refine ⟨fun r => by cases r <;> rfl, rfl, rfl, fun a => ?_⟩
  have hbyte : State.reset.byte a = if 0xFFDC ≤ a.toNat then 0x20 else 0x00 := rfl
  rw [hbyte]
  by_cases h : a.toNat < 0xFFDC
  · rw [if_neg (Nat.not_le.mpr h), if_pos h]
  · rw [if_pos (Nat.not_lt.mp h), if_neg h]

/-- `useOf` by the number of the address. -/
theorem useOf_eq (a : Word) :
    useOf a =
      if a.toNat ≤ 0xFF7F then .programAndStack else if a.toNat ≤ 0xFFBD then .reservedWords
      else if a.toNat ≤ 0xFFBF then .ivet else if a.toNat ≤ 0xFFD6 then .reservedBytes
      else if a.toNat = 0xFFD7 then .timdt else if a.toNat = 0xFFD8 then .ints
      else if a.toNat = 0xFFD9 then .inte else if a.toNat = 0xFFDA then .tecst
      else if a.toNat = 0xFFDB then .tecdt else .display := by
  simp only [useOf, ← BitVec.toNat_inj]
  rfl

/-- Each range of the map has the use of its addresses, and byte accesses from FFC0h up. -/
theorem use_of_holds {a : Word} {g : Region} (hg : g ∈ addressMap) (h : g.holds a = true) :
    g.use = useOf a ∧ g.byteAccess = decide (0xFFC0 ≤ a.toNat) := by
  rw [Region.holds_iff] at h
  rw [useOf_eq]
  simp only [addressMap, List.mem_cons, List.not_mem_nil, or_false] at hg
  rcases hg with rfl | rfl | rfl | rfl | rfl | rfl | rfl | rfl | rfl | rfl <;> grind

/-- Settles O18. -/
theorem addressMapPartitions : Obligations.AddressMapPartitions := by
  refine ⟨fun a => ?_, rfl⟩
  obtain ⟨g, hg, h⟩ := exists_region a
  obtain ⟨huse, hbyte⟩ := use_of_holds hg h
  exact ⟨g, hg, h, huse, hbyte, fun g' hg' h' => addressMap_unique hg hg' h h'⟩

/-- Settles O20: a display position lies in the 8-bit area, where `OpWrite` is a byte store. -/
theorem displayShowsStores : Obligations.DisplayShowsStores := by
  refine fun s v => ⟨State.length_display s, fun k hk => ?_, fun a ha => ?_⟩
  · rw [State.opWrite_of_ge s v (by rw [toNat_displayAddress hk]; omega)]
    exact State.display_setByte s hk (lowByte v)
  · exact State.display_congr fun b hb => State.byte_opWrite_other s v (not_mem_storedAddresses_of_lt ha hb)

end Sys2Proof.Claims
end

section
/-! Resolving a specifier, mode by mode (40_addressing_modes.md section 2): the location, the state after it, and the
refusal of an extension word that cannot be fetched. -/

namespace Sys2Proof

namespace Machine

/-! ## The modes without an extension word -/

theorem resolve_register (r : Reg) (s : State) : resolve ⟨.register, r⟩ s = .ok (.reg r, s) := rfl
theorem resolve_indirect (r : Reg) (s : State) : resolve ⟨.indirect, r⟩ s = .ok (.mem (s.reg r), s) := rfl
theorem resolve_postInc (r : Reg) (s : State) :
    resolve ⟨.postInc, r⟩ s = .ok (.mem (s.reg r), s.setReg r (s.reg r + 2)) := rfl
theorem resolve_preDec (r : Reg) (s : State) :
    resolve ⟨.preDec, r⟩ s = .ok (.mem (s.reg r - 2), s.setReg r (s.reg r - 2)) := by
  simp [resolve]
theorem resolve_postIncIndirect (r : Reg) (s : State) :
    resolve ⟨.postIncIndirect, r⟩ s = .ok (.mem (s.opRead (s.reg r)), s.setReg r (s.reg r + 2)) := rfl
theorem resolve_preDecIndirect (r : Reg) (s : State) :
    resolve ⟨.preDecIndirect, r⟩ s = .ok (.mem (s.opRead (s.reg r - 2)), s.setReg r (s.reg r - 2)) := by
  simp [resolve]

/-! ## The indexed modes -/

theorem State.fetchWord_of_lt {s : State} (h : s.pc.toNat < 0xFFBF) :
    s.fetchWord = .ok (s.memWord s.pc, s.setPc (s.pc + 2)) := by
  unfold State.fetchWord
  exact if_neg (Nat.not_le.mpr h)

theorem State.fetchWord_of_ge {s : State} (h : 0xFFBF ≤ s.pc.toNat) :
    s.fetchWord = .error (.fetchFromByteArea s.pc) := by
  unfold State.fetchWord
  exact if_pos h

/-- The sum of an indexed mode: R7 as the register counts after the extension word (R77, D13). -/
def indexedAddress (r : Reg) (s : State) : Word := s.memWord s.pc + if r = .r7 then s.pc + 2 else s.reg r

/-- The register of an indexed mode, read after the fetch of the extension word. -/
theorem State.reg_setPc (s : State) (r : Reg) (w : Word) :
    (s.setPc w).reg r = if r = .r7 then w else s.reg r := State.reg_setReg s .r7 r w

theorem resolve_indexed {r : Reg} {s : State} (h : s.pc.toNat < 0xFFBF) :
    resolve ⟨.indexed, r⟩ s = .ok (.mem (indexedAddress r s), s.setPc (s.pc + 2)) := by
  simp [resolve, State.fetchWord_of_lt h, State.reg_setPc, indexedAddress]

theorem resolve_indexedIndirect {r : Reg} {s : State} (h : s.pc.toNat < 0xFFBF) :
    resolve ⟨.indexedIndirect, r⟩ s = .ok (.mem (s.opRead (indexedAddress r s)), s.setPc (s.pc + 2)) := by
  simp [resolve, State.fetchWord_of_lt h, State.reg_setPc, indexedAddress]

/-- A specifier whose extension word cannot be fetched refuses with R7 (R56, R86). -/
theorem resolve_of_not_fetchable {o : Operand} {s : State} (h : o.fetchable s.pc = false) :
    resolve o s = .error (.fetchFromByteArea s.pc) := by
  obtain ⟨hext, hpc⟩ : o.hasExtension = true ∧ 0xFFBF ≤ s.pc.toNat := by simpa [Operand.fetchable] using h
  obtain ⟨m, r⟩ := o
  cases m with
  | indexed | indexedIndirect => simp [resolve, State.fetchWord_of_ge hpc]
  | register | postInc | preDec | indirect | postIncIndirect | preDecIndirect => cases hext

/-! ## The state after resolving -/

/-- The state after a specifier is resolved: its register stepped, or R7 past its extension word (R74 to R81). -/
def afterResolve (o : Operand) (s : State) : State :=
  match o.mode with
  | .register | .indirect => s
  | .postInc | .postIncIndirect => s.setReg o.reg (s.reg o.reg + 2)
  | .preDec | .preDecIndirect => s.setReg o.reg (s.reg o.reg - 2)
  | .indexed | .indexedIndirect => s.setPc (s.pc + 2)

theorem fetchable_of_resolve {o : Operand} {s s1 : State} {loc : Loc} (h : resolve o s = .ok (loc, s1)) :
    o.fetchable s.pc = true := by
  by_contra hne
  rw [resolve_of_not_fetchable (Bool.eq_false_of_not_eq_true hne)] at h
  cases h

theorem resolve_state {o : Operand} {s s1 : State} {loc : Loc} (h : resolve o s = .ok (loc, s1)) :
    s1 = afterResolve o s := by
  have hf := fetchable_of_resolve h
  obtain ⟨m, r⟩ := o
  cases m with
  | register | indirect | postInc | preDec | postIncIndirect | preDecIndirect =>
    cases h
    rfl
  | indexed =>
    rw [resolve_indexed (by simpa [Operand.fetchable, Operand.hasExtension] using hf)] at h
    cases h
    rfl
  | indexedIndirect =>
    rw [resolve_indexedIndirect (by simpa [Operand.fetchable, Operand.hasExtension] using hf)] at h
    cases h
    rfl

/-- R7 after resolving is where `pcAfter` says (R75 to R82). -/
theorem pc_afterResolve (o : Operand) (s : State) : (afterResolve o s).pc = o.pcAfter s.pc := by
  obtain ⟨m, r⟩ := o
  cases m <;> cases r <;> rfl

/-- Resolving leaves every register but R7 and the one the mode steps. -/
theorem reg_afterResolve {o : Operand} {r : Reg} (h7 : r ≠ .r7) (h : r ∉ Claims.steppedReg o) (s : State) :
    (afterResolve o s).reg r = s.reg r := by
  obtain ⟨m, q⟩ := o
  cases m with
  | register | indirect => rfl
  | indexed | indexedIndirect => exact State.reg_setPc_ne s _ h7
  | postInc | preDec | postIncIndirect | preDecIndirect =>
    exact State.reg_setReg_ne s _ (fun heq => h (List.mem_singleton.mpr heq))

theorem resolve_pc {o : Operand} {s s1 : State} {loc : Loc} (h : resolve o s = .ok (loc, s1)) :
    s1.pc = o.pcAfter s.pc := by rw [resolve_state h, pc_afterResolve]

theorem resolve_reg_other {o : Operand} {s s1 : State} {loc : Loc} (h : resolve o s = .ok (loc, s1)) {r : Reg}
    (h7 : r ≠ .r7) (hr : r ∉ Claims.steppedReg o) : s1.reg r = s.reg r := by
  rw [resolve_state h, reg_afterResolve h7 hr]

theorem resolve_mem {o : Operand} {s s1 : State} {loc : Loc} (h : resolve o s = .ok (loc, s1)) : s1.mem = s.mem := by
  obtain ⟨hmem, -⟩ := resolve_ok h
  exact hmem

theorem resolve_byte {o : Operand} {s s1 : State} {loc : Loc} (h : resolve o s = .ok (loc, s1)) (a : Word) :
    s1.byte a = s.byte a := by rw [State.byte, resolve_mem h, State.byte]

theorem resolve_flags {o : Operand} {s s1 : State} {loc : Loc} (h : resolve o s = .ok (loc, s1)) :
    s1.flags = s.flags := by
  obtain ⟨-, hflags, -⟩ := resolve_ok h
  exact hflags

end Machine

namespace Claims

open Sys2Proof.Machine

/-- Settles O8. -/
theorem directModesResolve : Obligations.DirectModesResolve := fun r s =>
  ⟨resolve_register r s, resolve_postInc r s, resolve_preDec r s, resolve_indirect r s⟩

/-- Settles O9. -/
theorem pointerModesResolve : Obligations.PointerModesResolve := fun r s =>
  ⟨resolve_postIncIndirect r s, resolve_preDecIndirect r s⟩

/-- Settles O10: both modes are the fetch of their extension word and the sum with the register, or its refusal. -/
theorem indexedModesResolve : Obligations.IndexedModesResolve := by
  refine fun r s => ⟨fun h => ⟨resolve_indexed h, resolve_indexedIndirect h⟩, fun h => ?_⟩
  exact ⟨resolve_of_not_fetchable (by simp [Operand.fetchable, Operand.hasExtension, h]),
    resolve_of_not_fetchable (by simp [Operand.fetchable, Operand.hasExtension, h])⟩

/-- Settles O11: below FFBFh `OpRead` at R7 reads a word, so the immediate and the absolute form step R7 over it. -/
theorem programCounterModes : Obligations.ProgramCounterModes := by
  intro s h w s1
  have hread : s.opRead s.pc = w := State.opRead_of_lt s (by omega)
  refine ⟨⟨s.pc, resolve_postInc .r7 s, hread⟩, ?_, resolve_indexed h, resolve_indexedIndirect h⟩
  rw [resolve_postIncIndirect, ← State.pc_eq, hread, ← State.setPc_eq]

/-- Settles O12. -/
theorem specifierResolvesOrRefuses : Obligations.SpecifierResolvesOrRefuses := by
  refine fun o s => ⟨fun h => ?_, resolve_of_not_fetchable⟩
  obtain ⟨loc, s1, hr⟩ := resolve_of_fetchable h
  obtain ⟨hmem, hflags, hhalted, -⟩ := resolve_ok hr
  exact ⟨loc, s1, hr, resolve_pc hr, hmem, hflags, hhalted, fun r => resolve_reg_other hr⟩

end Claims

end Sys2Proof
end

section
/-! The adder and the subtracter by values (44_two_operand.md R129, D17): results modulo 65536, C by unsigned and V by
signed size. -/

namespace Sys2Proof.Machine

open Sys2Proof.Claims

/-! ## Signed size -/

theorem toInt_bounds (v : Word) : -32768 ≤ v.toInt ∧ v.toInt ≤ 32767 := by
  have hlt := BitVec.toInt_lt (x := v)
  have hle := BitVec.le_toInt v
  omega

theorem outOfRange_eq_true_iff (x : Int) : outOfRange x = true ↔ x < -32768 ∨ 32767 < x := by simp [outOfRange]

/-- No word is out of the range of a word. -/
theorem outOfRange_toInt (v : Word) : outOfRange v.toInt = false := by
  have := toInt_bounds v
  rw [Bool.eq_false_iff, Ne, outOfRange_eq_true_iff]
  omega

/-- A property of a word's sign and value that only one word has, as a test for that word. -/
theorem outOfRange_eq_decide {x : Int} {v w : Word} (h : x < -32768 ∨ 32767 < x ↔ v.toInt = w.toInt) :
    outOfRange x = decide (v = w) := by
  rw [Bool.eq_iff_iff, outOfRange_eq_true_iff, h, BitVec.toInt_inj, decide_eq_true_iff]

/-! ## `Add` and `Sub` -/

theorem addWithCarry_res (a b : Word) : (addWithCarry a b false).res = a + b := by
  apply BitVec.eq_of_toNat_eq
  simp [addWithCarry]

theorem addWithCarry_out (a b : Word) : (addWithCarry a b false).out = decide (65536 ≤ a.toNat + b.toNat) := rfl

/-- The adder's overflow: operands of one sign and a result of the other, which is a sum that does not fit. -/
theorem addWithCarry_ovf (a b : Word) : (addWithCarry a b false).ovf = outOfRange (a.toInt + b.toInt) := by
  have hovf : (addWithCarry a b false).ovf = BitVec.saddOverflow a b := by
    rw [BitVec.saddOverflow_eq, ← addWithCarry_res]
    rfl
  rw [hovf, Bool.eq_iff_iff, outOfRange_eq_true_iff]
  simp only [BitVec.saddOverflow, Bool.or_eq_true, decide_eq_true_iff]
  omega

theorem subtract_res (a b : Word) : (subtract a b).res = a - b := rfl
theorem subtract_out (a b : Word) : (subtract a b).out = decide (a.toNat < b.toNat) := rfl

/-- The subtracter's overflow: operands of two signs and a result not of the first, which is a difference that does
not fit. -/
theorem subtract_ovf (a b : Word) : (subtract a b).ovf = outOfRange (a.toInt - b.toInt) := by
  have hovf : (subtract a b).ovf = BitVec.ssubOverflow a b := by
    rw [BitVec.ssubOverflow_eq, subtract]
    cases a.msb <;> cases b.msb <;> simp
  rw [hovf, Bool.eq_iff_iff, outOfRange_eq_true_iff]
  simp only [BitVec.ssubOverflow, Bool.or_eq_true, decide_eq_true_iff]
  omega

/-- The two results of an addition, by values. -/
theorem addWithCarry_withFlags (a b : Word) :
    (addWithCarry a b false).withFlags =
      (a + b, { n := (a + b).getLsbD 15, z := decide (a + b = 0), v := outOfRange (a.toInt + b.toInt)
                c := decide (65536 ≤ a.toNat + b.toNat) }) := by
  rw [Sum.withFlags, flagsOf_eq, addWithCarry_res, addWithCarry_ovf, addWithCarry_out]

/-- The two results of a subtraction, by values. -/
theorem subtract_withFlags (a b : Word) :
    (subtract a b).withFlags =
      (a - b, { n := (a - b).getLsbD 15, z := decide (a - b = 0), v := outOfRange (a.toInt - b.toInt)
                c := decide (a.toNat < b.toNat) }) := by
  rw [Sum.withFlags, flagsOf_eq, subtract_ovf, subtract_out, subtract_res]

/-! ## Two operands -/

theorem movFlags_eq (v : Word) (f : Flags) :
    movFlags v f = { n := v.getLsbD 15, z := decide (v.toNat = 0), v := false, c := f.c } := by
  rw [movFlags, flagsOf_eq, decide_eq_decide.mpr (BitVec.toNat_inj (y := 0)).symm]
  rfl

theorem addOp_eq (d v : Word) (f : Flags) :
    addOp d v f = (d + v, { n := (d + v).getLsbD 15, z := decide ((d.toNat + v.toNat) % 65536 = 0)
                            v := outOfRange (d.toInt + v.toInt), c := decide (65536 ≤ d.toNat + v.toNat) }) := by
  have hzero : d + v = 0 ↔ (d.toNat + v.toNat) % 65536 = 0 := by rw [← BitVec.toNat_inj, BitVec.toNat_add]; rfl
  rw [addOp, addWithCarry_withFlags, decide_eq_decide.mpr hzero]

theorem subOp_eq (d v : Word) (f : Flags) :
    subOp d v f = (d - v, { n := (d - v).getLsbD 15, z := decide (d = v), v := outOfRange (d.toInt - v.toInt)
                            c := decide (d.toNat < v.toNat) }) := by
  rw [subOp, subtract_withFlags, decide_eq_decide.mpr (sub_eq_zero (a := d))]

theorem cmpFlags_eq (v d : Word) :
    cmpFlags v d = { n := (v - d).getLsbD 15, z := decide (v = d), v := outOfRange (v.toInt - d.toInt)
                     c := decide (v.toNat < d.toNat) } := by
  rw [cmpFlags, subtract_withFlags, decide_eq_decide.mpr (sub_eq_zero (a := v))]

theorem andOp_eq (d v : Word) (f : Flags) :
    andOp d v f = (d &&& v, { n := d.getLsbD 15 && v.getLsbD 15, z := decide ((d &&& v).toNat = 0), v := false
                              c := f.c }) := by
  rw [andOp, flagsOf_eq, BitVec.getLsbD_and, decide_eq_decide.mpr (BitVec.toNat_inj (y := 0)).symm]
  rfl

theorem orOp_eq (d v : Word) (f : Flags) :
    orOp d v f = (d ||| v, { n := d.getLsbD 15 || v.getLsbD 15, z := decide (d = 0 ∧ v = 0), v := false
                             c := f.c }) := by
  have hzero : d ||| v = 0 ↔ d = 0 ∧ v = 0 := BitVec.or_eq_zero_iff
  rw [orOp, flagsOf_eq, BitVec.getLsbD_or, decide_eq_decide.mpr hzero]

/-! ## One operand -/

theorem incOp_eq (v : Word) (f : Flags) :
    incOp v f = (v + 1, { n := (v + 1).getLsbD 15, z := decide (v = 0xFFFF), v := decide (v = 0x7FFF)
                          c := decide (v = 0xFFFF) }) := by
  have hzero : v + 1 = 0 ↔ v = 0xFFFF := by bv_omega
  have hcarry : 65536 ≤ v.toNat + (1 : Word).toNat ↔ v = 0xFFFF := by bv_omega
  have hovf : outOfRange (v.toInt + (1 : Word).toInt) = decide (v = 0x7FFF) := by
    have hbounds := toInt_bounds v
    have hone : (1 : Word).toInt = 1 := by decide
    have hmax : (0x7FFF : Word).toInt = 32767 := by decide
    exact outOfRange_eq_decide (by omega)
  rw [incOp, addWithCarry_withFlags, hovf, decide_eq_decide.mpr hzero, decide_eq_decide.mpr hcarry]

theorem decOp_eq (v : Word) (f : Flags) :
    decOp v f = (v - 1, { n := (v - 1).getLsbD 15, z := decide (v = 1), v := decide (v = 0x8000)
                          c := decide (v = 0) }) := by
  have hborrow : v.toNat < (1 : Word).toNat ↔ v = 0 := by bv_omega
  have hovf : outOfRange (v.toInt - (1 : Word).toInt) = decide (v = 0x8000) := by
    have hbounds := toInt_bounds v
    have hone : (1 : Word).toInt = 1 := by decide
    have hmin : (0x8000 : Word).toInt = -32768 := by decide
    exact outOfRange_eq_decide (by omega)
  rw [decOp, subtract_withFlags, hovf, decide_eq_decide.mpr (sub_eq_zero (a := v)), decide_eq_decide.mpr hborrow]

theorem negOp_eq (v : Word) (f : Flags) :
    negOp v f = (-v, { n := (-v).getLsbD 15, z := decide (v = 0), v := decide (v = 0x8000)
                       c := decide (v ≠ 0) }) := by
  have hneg : 0 - v = -v := BitVec.zero_sub v
  have hzero : -v = 0 ↔ v = 0 := BitVec.neg_eq_zero_iff
  have hborrow : (0 : Word).toNat < v.toNat ↔ v ≠ 0 := by bv_omega
  have hovf : outOfRange ((0 : Word).toInt - v.toInt) = decide (v = 0x8000) := by
    have hbounds := toInt_bounds v
    have hz : (0 : Word).toInt = 0 := by decide
    have hmin : (0x8000 : Word).toInt = -32768 := by decide
    exact outOfRange_eq_decide (by omega)
  rw [negOp, subtract_withFlags, hovf, hneg, decide_eq_decide.mpr hzero, decide_eq_decide.mpr hborrow]

/-- With C set ADC is INC, with C clear it adds 0. -/
theorem adcOp_eq (v : Word) (f : Flags) :
    let res := if f.c then v + 1 else v
    adcOp v f = (res, { n := res.getLsbD 15, z := decide (res = 0), v := f.c && decide (v = 0x7FFF)
                        c := f.c && decide (v = 0xFFFF) }) := by
  cases hc : f.c with
  | true =>
    have hinc : adcOp v f = incOp v f := by simp [adcOp, incOp, addWithCarry, hc]
    have hzero : v + 1 = 0 ↔ v = 0xFFFF := by bv_omega
    simp only [hinc, incOp_eq, if_true, Bool.true_and, decide_eq_decide.mpr hzero]
  | false =>
    have hfits : outOfRange (v.toInt + (0 : Word).toInt) = false := by simpa using outOfRange_toInt v
    have hsmall : ¬ 65536 ≤ v.toNat + (0 : Word).toNat := by bv_omega
    have hadd : v + 0 = v := BitVec.add_zero v
    rw [adcOp, hc, addWithCarry_withFlags, hfits, decide_eq_false hsmall, hadd]
    rfl

/-- With C set SBC is DEC, with C clear it subtracts 0; its C is the borrow or the complement of it. -/
theorem sbcOp_eq (mode : SbcCMode) (v : Word) (f : Flags) :
    let res := if f.c then v - 1 else v
    let borrow := f.c && decide (v = 0)
    sbcOp mode v f = (res, { n := res.getLsbD 15, z := decide (res = 0), v := f.c && decide (v = 0x8000)
                             c := if mode = .carryOut then !borrow else borrow }) := by
  have hmode (borrow : Bool) : sbcCarry mode borrow = if mode = .carryOut then !borrow else borrow := by
    cases mode <;> rfl
  cases hc : f.c with
  | true =>
    have hdec := decOp_eq v f
    rw [decOp, Sum.withFlags, flagsOf_eq, Prod.mk.injEq, Flags.mk.injEq] at hdec
    obtain ⟨hres, -, -, hovf, hout⟩ := hdec
    have hone : (BitVec.ofBool true).setWidth 16 = (1 : Word) := rfl
    simp only [sbcOp, hc, hone, hmode, flagsOf_eq, hres, hovf, hout]
    rfl
  | false =>
    have hzero : (BitVec.ofBool false).setWidth 16 = (0 : Word) := rfl
    have hfits : outOfRange (v.toInt - (0 : Word).toInt) = false := by simpa using outOfRange_toInt v
    have hsmall : ¬ v.toNat < (0 : Word).toNat := by bv_omega
    have hsub : v - 0 = v := BitVec.sub_zero v
    simp only [sbcOp, hc, hzero, hmode, flagsOf_eq, subtract_ovf, subtract_out, subtract_res, hfits,
      decide_eq_false hsmall, hsub]
    rfl

/-! ## Arithmetic shifts -/

/-- ASR's result by bits: the sign is copied in (R139, D19). -/
theorem sign_append_high_bits (v : Word) : v.extractLsb' 15 1 ++ v.extractLsb' 1 15 = v.sshiftRight 1 := by
  refine BitVec.eq_of_getLsbD_eq fun i hi => ?_
  rw [BitVec.getLsbD_append, BitVec.getLsbD_sshiftRight]
  by_cases hlow : i < 15
  · have hword : 1 + i < 16 := by omega
    simp [hlow, hi, hword]
  · obtain rfl : i = 15 := by omega
    simp [BitVec.msb_eq_getLsbD_last]

/-- Shifting the sign in halves the signed number, rounding down. -/
theorem sshiftRight_one (v : Word) : v.sshiftRight 1 = BitVec.ofInt 16 (v.toInt / 2) := by
  rw [← BitVec.ofInt_toInt (x := v.sshiftRight 1), BitVec.toInt_sshiftRight, Int.shiftRight_eq_div_pow]
  rfl

theorem asrOp_eq (v : Word) (f : Flags) :
    let half := BitVec.ofInt 16 (v.toInt / 2)
    asrOp v f = (half, { n := v.getLsbD 15, z := decide (half = 0), v := v.getLsbD 15 ^^ v.getLsbD 0
                         c := v.getLsbD 0 }) := by
  have hsign : (v.extractLsb' 15 1 ++ v.extractLsb' 1 15).getLsbD 15 = v.getLsbD 15 := by
    rw [BitVec.getLsbD_append]; simp
  rw [asrOp, shiftResult_eq, hsign, sign_append_high_bits, sshiftRight_one]

/-- ASL's result: the number doubled (R140, D19). -/
theorem low_bits_append_zero (v : Word) : v.extractLsb' 0 15 ++ 0#1 = v + v := by
  have hshift := low_bits_append_ofBool v false
  rw [← BitVec.mul_two, show (2#16) = BitVec.twoPow 16 1 from rfl, BitVec.mul_twoPow_eq_shiftLeft]
  simpa using hshift

/-- The double overflows exactly when its sign differs from the operand's. -/
theorem aslOp_eq (v : Word) (f : Flags) :
    aslOp v f = (v + v, { n := v.getLsbD 14, z := decide (v + v = 0), v := outOfRange (2 * v.toInt)
                          c := v.getLsbD 15 }) := by
  have hsign : (v + v).getLsbD 15 = v.getLsbD 14 := by
    rw [← low_bits_append_zero, BitVec.getLsbD_append]; simp
  have hovf : outOfRange (2 * v.toInt) = (v.getLsbD 14 ^^ v.getLsbD 15) := by
    have hdef : (addWithCarry v v false).ovf =
        ((v.msb == v.msb) && ((addWithCarry v v false).res.msb != v.msb)) := rfl
    rw [Int.two_mul, ← addWithCarry_ovf, hdef, addWithCarry_res, beq_self_eq_true, Bool.true_and,
      BitVec.msb_eq_getLsbD_last, BitVec.msb_eq_getLsbD_last, hsign]
  rw [aslOp, shiftResult_eq, low_bits_append_zero, hsign, hovf]

end Sys2Proof.Machine
end

section
/-! INC, DEC, NEG, ASR, ASL, ADC and SBC (45_one_operand.md): each is the one-operand sequence with its own
operation. -/

namespace Sys2Proof

namespace Machine

theorem exec_inc (o : Operand) (s : State) : exec (.inc o) s = oneOperand o incOp s := rfl
theorem exec_dec (o : Operand) (s : State) : exec (.dec o) s = oneOperand o decOp s := rfl
theorem exec_neg (o : Operand) (s : State) : exec (.neg o) s = oneOperand o negOp s := rfl
theorem exec_asr (o : Operand) (s : State) : exec (.asr o) s = oneOperand o asrOp s := rfl
theorem exec_asl (o : Operand) (s : State) : exec (.asl o) s = oneOperand o aslOp s := rfl
theorem exec_adc (o : Operand) (s : State) : exec (.adc o) s = oneOperand o adcOp s := rfl
theorem exec_sbc (o : Operand) (s : State) : exec (.sbc o) s = oneOperand o (sbcOp s.config.sbcCMode) s := rfl

end Machine

namespace Claims

open Sys2Proof.Machine

/-- Settles O37: `incOp_eq` and `decOp_eq` give the results and the flags. -/
theorem incDec : Obligations.IncDec := by
  refine ⟨encodedF1_of_oneOperand (b1 := 0x82) (by decide) (by decide),
    encodedF1_of_oneOperand (b1 := 0x83) (by decide) (by decide), fun o s h => ?_⟩
  obtain ⟨loc, s1, hr⟩ := resolve_of_fetchable h
  exact ⟨loc, s1, hr,
    (exec_inc o s).trans (oneOperand_of_resolve hr (incOp_eq _ _)),
    (exec_dec o s).trans (oneOperand_of_resolve hr (decOp_eq _ _))⟩

/-- Settles O38: `negOp_eq` gives the result and the flags. -/
theorem negComplements : Obligations.NegComplements := by
  refine ⟨encodedF1_of_oneOperand (b1 := 0x84) (by decide) (by decide), fun o s h => ?_⟩
  obtain ⟨loc, s1, hr⟩ := resolve_of_fetchable h
  exact ⟨loc, s1, hr, (exec_neg o s).trans (oneOperand_of_resolve hr (negOp_eq _ _))⟩

/-- Settles O40: `asrOp_eq` and `aslOp_eq` give the signed half and double and the flags. -/
theorem arithmeticShifts : Obligations.ArithmeticShifts := by
  refine ⟨encodedF1_of_oneOperand (b1 := 0x88) (by decide) (by decide),
    encodedF1_of_oneOperand (b1 := 0x89) (by decide) (by decide), fun o s h => ?_⟩
  obtain ⟨loc, s1, hr⟩ := resolve_of_fetchable h
  exact ⟨loc, s1, hr,
    (exec_asr o s).trans (oneOperand_of_resolve hr (asrOp_eq _ _)),
    (exec_asl o s).trans (oneOperand_of_resolve hr (aslOp_eq _ _))⟩

/-- Settles O41: `adcOp_eq` gives the result and the flags from the C before the instruction. -/
theorem adcAddsCarry : Obligations.AdcAddsCarry := by
  refine ⟨encodedF1_of_oneOperand (b1 := 0x8A) (by decide) (by decide), fun o s h => ?_⟩
  obtain ⟨loc, s1, hr⟩ := resolve_of_fetchable h
  exact ⟨loc, s1, hr, (exec_adc o s).trans (oneOperand_of_resolve hr (adcOp_eq _ _))⟩

/-- Settles O42: `sbcOp_eq` gives the result and the flags for both values of the parameter. -/
theorem sbcSubtractsCarry : Obligations.SbcSubtractsCarry := by
  refine ⟨encodedF1_of_oneOperand (b1 := 0x8B) (by decide) (by decide), fun o s h => ?_⟩
  obtain ⟨loc, s1, hr⟩ := resolve_of_fetchable h
  exact ⟨loc, s1, hr, (exec_sbc o s).trans (oneOperand_of_resolve hr (sbcOp_eq _ _ _))⟩

end Claims

end Sys2Proof
end

section
/-! MOV, ADD, SUB, CMP, AND and OR (44_two_operand.md): the encoding F2, the two specifiers resolved in order, and the
operation of each on the source and the destination. -/

namespace Sys2Proof

namespace Claims

/-- The high nibbles 9 to 14 have format F2 (R51, R52). -/
theorem encodedF2_of_twoOperand {n : Nat} (h9 : 9 ≤ n) (h14 : n ≤ 14) : EncodedF2 n (twoOperandInstr n) := by
  intro b1 b2 rest hn
  subst hn
  rw [decode_of_twoBytes (hasSecondByte_of_twoOperand h9 h14), decodePair_of_twoOperand h9 h14]
  rfl

end Claims

namespace Machine

open Sys2Proof.Claims

/-- Two specifiers whose extension words can be fetched one after the other resolve in order (R53, R122). -/
theorem resolved_of_fetchable {src dst : Operand} {s : State} (h : extensionsFetchable [src, dst] s.pc = true) :
    ∃ sloc s1 dloc s2, Resolved src dst s sloc s1 dloc s2 := by
  simp only [extensionsFetchable, Bool.and_true, Bool.and_eq_true] at h
  obtain ⟨hsrc, hdst⟩ := h
  obtain ⟨sloc, s1, hs⟩ := resolve_of_fetchable hsrc
  rw [← resolve_pc hs] at hdst
  obtain ⟨dloc, s2, hd⟩ := resolve_of_fetchable hdst
  exact ⟨sloc, s1, dloc, s2, hs, hd⟩

theorem resolved_flags {src dst : Operand} {s s1 s2 : State} {sloc dloc : Loc}
    (h : Resolved src dst s sloc s1 dloc s2) : s2.flags = s.flags := (resolve_flags h.2).trans (resolve_flags h.1)

/-- A two-operand instruction with its specifiers resolved is its own part on the source value (R122). -/
theorem twoOperand_of_resolved {src dst : Operand} {k : Word → Loc → State → State} {s s1 s2 : State}
    {sloc dloc : Loc} (h : Resolved src dst s sloc s1 dloc s2) :
    twoOperand src dst k s = .next (k (s1.locRead sloc) dloc s2) := by
  simp [twoOperand, h.1, h.2]

/-- A two-operand instruction that combines both operands writes what its operation makes of them and of the flags
before the instruction (R122). -/
theorem combine_of_resolved {src dst : Operand} {f : Word → Word → Flags → Word × Flags} {s s1 s2 : State}
    {sloc dloc : Loc} (h : Resolved src dst s sloc s1 dloc s2) {res : Word} {fl : Flags}
    (hf : f (s2.locRead dloc) (s1.locRead sloc) s.flags = (res, fl)) :
    twoOperand src dst (combine f) s = .next ((s2.locWrite dloc res).setFlags fl) := by
  rw [twoOperand_of_resolved h, combine, resolved_flags h, hf]

theorem exec_mov (src dst : Operand) (s : State) :
    exec (.mov src dst) s =
      twoOperand src dst (fun v dloc t => (t.locWrite dloc v).setFlags (movFlags v t.flags)) s := rfl
theorem exec_add (src dst : Operand) (s : State) : exec (.add src dst) s = twoOperand src dst (combine addOp) s := rfl
theorem exec_sub (src dst : Operand) (s : State) : exec (.sub src dst) s = twoOperand src dst (combine subOp) s := rfl
theorem exec_cmp (src dst : Operand) (s : State) :
    exec (.cmp src dst) s = twoOperand src dst (fun v dloc t => t.setFlags (cmpFlags v (t.locRead dloc))) s := rfl
theorem exec_and (src dst : Operand) (s : State) : exec (.and src dst) s = twoOperand src dst (combine andOp) s := rfl
theorem exec_or (src dst : Operand) (s : State) : exec (.or src dst) s = twoOperand src dst (combine orOp) s := rfl

theorem exec_cmp_of_resolved {src dst : Operand} {s s1 s2 : State} {sloc dloc : Loc}
    (h : Resolved src dst s sloc s1 dloc s2) :
    exec (.cmp src dst) s = .next (s2.setFlags (cmpFlags (s1.locRead sloc) (s2.locRead dloc))) := by
  rw [exec_cmp, twoOperand_of_resolved h]

end Machine

namespace Claims

open Sys2Proof.Machine

/-- Settles O32. -/
theorem movCopies : Obligations.MovCopies := by
  refine ⟨encodedF2_of_twoOperand (n := 9) (by decide) (by decide), fun src dst s h => ?_⟩
  obtain ⟨sloc, s1, dloc, s2, hr⟩ := resolved_of_fetchable h
  refine ⟨sloc, s1, dloc, s2, hr, ?_⟩
  rw [exec_mov, twoOperand_of_resolved hr, resolved_flags hr, movFlags_eq]

/-- Settles O33: `addOp_eq` gives the sum and the flags. -/
theorem addSums : Obligations.AddSums := by
  refine ⟨encodedF2_of_twoOperand (n := 10) (by decide) (by decide), fun src dst s h => ?_⟩
  obtain ⟨sloc, s1, dloc, s2, hr⟩ := resolved_of_fetchable h
  exact ⟨sloc, s1, dloc, s2, hr, (exec_add src dst s).trans (combine_of_resolved hr (addOp_eq _ _ _))⟩

/-- Settles O34: `subOp_eq` and `cmpFlags_eq` give the differences, each in its own order, and the flags. -/
theorem subCmpDifferences : Obligations.SubCmpDifferences := by
  refine ⟨encodedF2_of_twoOperand (n := 11) (by decide) (by decide),
    encodedF2_of_twoOperand (n := 12) (by decide) (by decide), fun src dst s h => ?_⟩
  obtain ⟨sloc, s1, dloc, s2, hr⟩ := resolved_of_fetchable h
  refine ⟨sloc, s1, dloc, s2, hr, (exec_sub src dst s).trans (combine_of_resolved hr (subOp_eq _ _ _)), ?_⟩
  rw [exec_cmp_of_resolved hr, cmpFlags_eq]

/-- Settles O35: `andOp_eq` and `orOp_eq` give the results and the flags, C as it was. -/
theorem andOrCombineBits : Obligations.AndOrCombineBits := by
  refine ⟨encodedF2_of_twoOperand (n := 13) (by decide) (by decide),
    encodedF2_of_twoOperand (n := 14) (by decide) (by decide), fun src dst s h => ?_⟩
  obtain ⟨sloc, s1, dloc, s2, hr⟩ := resolved_of_fetchable h
  exact ⟨sloc, s1, dloc, s2, hr, (exec_and src dst s).trans (combine_of_resolved hr (andOp_eq _ _ _)),
    (exec_or src dst s).trans (combine_of_resolved hr (orOp_eq _ _ _))⟩

end Claims

end Sys2Proof
end

section
/-! Steps that fetch (30_encoding.md R55, R57): the instruction that runs, or the refusal of a fetch in the 8-bit
area. -/

namespace Sys2Proof

namespace Machine

@[simp] theorem State.setPc_setPc (s : State) (a b : Word) : (s.setPc a).setPc b = s.setPc b := rfl

/-- At or above FFC0h `FetchByte` refuses (R55). -/
theorem State.fetchByte_of_ge {s : State} (h : 0xFFC0 ≤ s.pc.toNat) :
    s.fetchByte = .error (.fetchFromByteArea s.pc) := by
  unfold State.fetchByte
  exact if_pos h

theorem toNat_add_one {a : Word} (h : a.toNat < 0xFFFF) : (a + 1).toNat = a.toNat + 1 := by bv_omega

theorem State.fetchInstr_of_twoBytes {s : State} (hpc : s.pc.toNat < 0xFFBF)
    (h : hasSecondByte (s.byte s.pc) = true) :
    s.fetchInstr = .ok (decodePair (s.byte s.pc) (s.byte (s.pc + 1)), s.setPc (s.pc + 2)) := by
  have hnext : (s.setPc (s.pc + 1)).pc.toNat < 0xFFC0 := by
    rw [State.pc_setPc, toNat_add_one (by omega)]
    omega
  have htwo : s.pc + 1 + 1 = s.pc + 2 := BitVec.add_assoc _ _ _
  simp only [State.fetchInstr, State.fetchByte_of_lt (Nat.lt_trans hpc (by decide)), h, if_true,
    State.fetchByte_of_lt hnext, State.pc_setPc, State.setPc_byte, State.setPc_setPc, htwo]

theorem State.fetchInstr_of_ge {s : State} (h : 0xFFC0 ≤ s.pc.toNat) :
    s.fetchInstr = .error (.fetchFromByteArea s.pc) := by
  simp [State.fetchInstr, State.fetchByte_of_ge h]

/-- The second byte of an instruction at FFBFh lies in the 8-bit area (R55). -/
theorem State.fetchInstr_cut {s : State} (hpc : s.pc = 0xFFBF) (h : hasSecondByte (s.byte s.pc) = true) :
    s.fetchInstr = .error (.fetchFromByteArea 0xFFC0) := by
  have hnext : (s.setPc (s.pc + 1)).pc = 0xFFC0 := by rw [State.pc_setPc, hpc]; rfl
  have hcut : (s.setPc (s.pc + 1)).fetchByte = .error (.fetchFromByteArea 0xFFC0) := by
    rw [State.fetchByte_of_ge (by rw [hnext]; decide), hnext]
  simp only [State.fetchInstr, State.fetchByte_of_lt (show s.pc.toNat < 0xFFC0 by rw [hpc]; decide), h, if_true, hcut]

theorem exec_hlt (s : State) : exec .hlt s = .next s.halt := rfl
theorem exec_ccc (m : FlagMask) (s : State) : exec (.ccc m) s = .next (s.setFlags (clearFlags m s.flags)) := rfl
theorem exec_scc (m : FlagMask) (s : State) : exec (.scc m) s = .next (s.setFlags (raiseFlags m s.flags)) := rfl

theorem clearFlags_eq (m : FlagMask) (f : Flags) :
    clearFlags m f = { n := if m.n then false else f.n, z := if m.z then false else f.z
                       v := if m.v then false else f.v, c := if m.c then false else f.c } := by
  rcases m with ⟨_ | _, _ | _, _ | _, _ | _⟩ <;> simp [clearFlags]

theorem raiseFlags_eq (m : FlagMask) (f : Flags) :
    raiseFlags m f = { n := if m.n then true else f.n, z := if m.z then true else f.z
                       v := if m.v then true else f.v, c := if m.c then true else f.c } := by
  rcases m with ⟨_ | _, _ | _, _ | _, _ | _⟩ <;> simp [raiseFlags]

/-- What makes the processor take an interrupt (R149, R150). -/
theorem State.takesInterrupt_iff (s : State) :
    s.takesInterrupt = true ↔
      s.config.hasInterrupts = true ∧ (s.byte 0xFFD9).getLsbD 7 = true ∧ (s.byte 0xFFD8).getLsbD 7 = false ∧
        (((s.byte 0xFFD9).getLsbD 1 = true ∧ (s.byte 0xFFD8).getLsbD 1 = true) ∨
          ((s.byte 0xFFD9).getLsbD 0 = true ∧ (s.byte 0xFFD8).getLsbD 0 = true)) := by
  simp only [State.takesInterrupt, State.irq, State.inte, State.ints, Bool.and_eq_true, Bool.or_eq_true,
    Bool.not_eq_true', and_assoc]

/-- The processor's turn in a halted state passes (assumption log 5). -/
theorem step_of_halted {s : State} (hm : s.processorMoves) (hh : s.halted = true) : step s = .next s.afterSchedule := by
  simp [step_of_processorMoves hm, processorTurn, hh]

end Machine

namespace Claims

open Sys2Proof.Machine

/-- A step that fetches a two-byte instruction executes it with R7 two further (R57). -/
theorem step_of_twoBytes {s : State} (hf : Fetches s) (hpc : s.pc.toNat < 0xFFBF)
    (h : hasSecondByte (s.byte s.pc) = true) :
    step s = exec (decodePair (s.byte s.pc) (s.byte (s.pc + 1))) (s.afterSchedule.setPc (s.pc + 2)) := by
  have hfetch : s.afterSchedule.fetchInstr =
      .ok (decodePair (s.byte s.pc) (s.byte (s.pc + 1)), s.afterSchedule.setPc (s.pc + 2)) :=
    State.fetchInstr_of_twoBytes (s := s.afterSchedule) hpc h
  rw [step_of_fetches hf, runInstr, hfetch]

/-- How many bytes the encoder writes is told by the first byte that was read (R50, R65). -/
theorem length_encode_decodePair (b1 b2 : Byte) :
    (encode (decodePair b1 b2)).length = if hasSecondByte b1 then 2 else 1 := by
  rw [encode_decodePair]
  split <;> rfl

/-- Settles O51: the two bytes at R7 decode to what a step that fetches one or two bytes there executes. -/
theorem stepRunsDecodedInstr : Obligations.StepRunsDecodedInstr := by
  intro s i rest hf hd hfits
  rw [bytesAtPc] at hd
  cases h : hasSecondByte (s.byte s.pc) with
  | true =>
    rw [decode_of_twoBytes h] at hd
    cases hd
    rw [length_encode_decodePair, h, if_pos rfl] at hfits ⊢
    exact step_of_twoBytes hf (by omega) h
  | false =>
    rw [decode_of_oneByte h] at hd
    cases hd
    rw [length_encode_decodePair, h, if_neg (by decide)] at hfits ⊢
    exact step_of_oneByte hf (by omega) h

/-- Settles O48. -/
theorem fetchInByteAreaRefuses : Obligations.FetchInByteAreaRefuses := by
  refine ⟨fun s hf hpc => ?_, fun s hf hpc h => ?_⟩ <;> rw [step_of_fetches hf, runInstr]
  · rw [State.fetchInstr_of_ge (s := s.afterSchedule) hpc, State.afterSchedule_pc]
  · rw [State.fetchInstr_cut (s := s.afterSchedule) hpc h]

/-- Settles O52. -/
theorem interruptTakenExactlyWhen : Obligations.InterruptTakenExactlyWhen :=
  ⟨State.takesInterrupt_iff, fun _ hm hh hi => step_of_fetches ⟨hm, hh, hi⟩, fun _ => step_of_halted⟩

/-- Settles O22: HLT is a one-byte instruction whose arm sets `halted`. -/
theorem hltStops : Obligations.HltStops := by
  have hbyte {b1 : Byte} (h : highNibble b1 = 15) : hasSecondByte b1 = false := by simp [hasSecondByte, h]
  refine ⟨fun b1 rest h => ?_, exec_hlt, fun s hf hpc h => ?_, fun _ => step_of_halted⟩
  · rw [decode_of_oneByte (hbyte h), decodePair_of_highNibble_fifteen h]
  · rw [step_of_oneByte hf hpc (hbyte h), decodePair_of_highNibble_fifteen h]
    rfl

/-- Settles O23. -/
theorem cccSccSelectFlags : Obligations.CccSccSelectFlags := by
  refine fun m s => ⟨?_, ?_⟩
  · rw [exec_ccc, clearFlags_eq]
  · rw [exec_scc, raiseFlags_eq]

/-- The unassigned first bytes are single bytes, and what they decode to refuses with the byte (R63). -/
theorem exec_of_mem_reservedBytes {b : Byte} (h : b ∈ reservedBytes) (s : State) :
    hasSecondByte b = false ∧ exec (decodePair b 0) s = .refused (.reservedOpcode b) := by
  simp only [reservedBytes, List.mem_cons, List.not_mem_nil, or_false] at h
  rcases h with rfl | rfl | rfl | rfl | rfl <;> exact ⟨by decide, rfl⟩

/-- Settles O47. -/
theorem undefinedFormsRefuse : Obligations.UndefinedFormsRefuse := by
  refine ⟨fun s => ⟨rfl, rfl, rfl, rfl, rfl⟩, fun s hf hpc h => ?_, fun s r l => ⟨rfl, rfl⟩⟩
  obtain ⟨hone, hexec⟩ := exec_of_mem_reservedBytes h (s.afterSchedule.setPc (s.pc + 1))
  rw [step_of_oneByte hf hpc hone, hexec]

end Claims

end Sys2Proof
end

section
/-! Branches (43_control_flow.md R100 to R116), and what they decide after CMP (44_two_operand.md R126). -/

namespace Sys2Proof

theorem hasSecondByte_of_branch {b1 : Byte} (hi : highNibble b1 = 3) (lo : lowNibble b1 < 15) :
    hasSecondByte b1 = true := by
  simp [hasSecondByte, hi, lo]

namespace Machine

open Sys2Proof.Claims

/-- A branch adds its signed displacement to R7, modulo 65536, or does nothing (R100, D9). -/
theorem branchIf_eq (cond : Bool) (d : Byte) (s : State) :
    branchIf cond d s = .next (if cond then displaced s d.toInt else s) := by
  have hsum : s.pc + d.signExtend 16 = BitVec.ofInt 16 (s.pc.toInt + d.toInt) := by
    rw [BitVec.ofInt_add, BitVec.ofInt_toInt]
    rfl
  rw [branchIf, displaced, hsum]

theorem exec_br (d : Byte) (s : State) : exec (.br d) s = branchIf true d s := rfl
theorem exec_bne (d : Byte) (s : State) : exec (.bne d) s = branchIf (condNE s.flags) d s := rfl
theorem exec_beq (d : Byte) (s : State) : exec (.beq d) s = branchIf (condEQ s.flags) d s := rfl
theorem exec_bpl (d : Byte) (s : State) : exec (.bpl d) s = branchIf (condPL s.flags) d s := rfl
theorem exec_bmi (d : Byte) (s : State) : exec (.bmi d) s = branchIf (condMI s.flags) d s := rfl
theorem exec_bvc (d : Byte) (s : State) : exec (.bvc d) s = branchIf (condVC s.flags) d s := rfl
theorem exec_bvs (d : Byte) (s : State) : exec (.bvs d) s = branchIf (condVS s.flags) d s := rfl
theorem exec_bcc (d : Byte) (s : State) : exec (.bcc d) s = branchIf (condCC s.flags) d s := rfl
theorem exec_bcs (d : Byte) (s : State) : exec (.bcs d) s = branchIf (condCS s.flags) d s := rfl
theorem exec_bge (d : Byte) (s : State) : exec (.bge d) s = branchIf (condGE s.flags) d s := rfl
theorem exec_blt (d : Byte) (s : State) : exec (.blt d) s = branchIf (condLT s.flags) d s := rfl
theorem exec_bgt (d : Byte) (s : State) : exec (.bgt d) s = branchIf (condGT s.flags) d s := rfl
theorem exec_ble (d : Byte) (s : State) : exec (.ble d) s = branchIf (condLE s.flags) d s := rfl
theorem exec_bhi (d : Byte) (s : State) : exec (.bhi d) s = branchIf (condHI s.flags) d s := rfl
theorem exec_bls (d : Byte) (s : State) : exec (.bls d) s = branchIf (condLS s.flags) d s := rfl

end Machine

namespace Claims

open Sys2Proof.Machine

/-- An instruction of the branch group whose arm is `branchIf` on a condition that says `P` is a branch on `P`: its
step at A is that arm with R7 at A + 2 (R54, R59, R100). -/
theorem branches_of_branchIf {b1 : Byte} {c : Byte → Instr} {cond : Flags → Bool} {P : Flags → Prop}
    (hi : highNibble b1 = 3) (lo : lowNibble b1 < 15) (hc : ∀ d, decodeBranch (lowNibble b1) d = c d)
    (hexec : ∀ d s, exec (c d) s = branchIf (cond s.flags) d s) (hP : ∀ f, cond f = true ↔ P f) :
    Branches b1 c P := by
  have heffect (d : Byte) (s : State) :
      (P s.flags → exec (c d) s = .next (displaced s d.toInt)) ∧ (¬ P s.flags → exec (c d) s = .next s) := by
    rw [hexec, branchIf_eq, ← hP]
    exact ⟨fun h => by rw [if_pos h], fun h => by rw [if_neg h]⟩
  have hpair (d : Byte) : decodePair b1 d = c d := by rw [decodePair_of_highNibble_three hi, hc]
  have htwo := hasSecondByte_of_branch hi lo
  refine ⟨fun d rest => ?_, heffect, fun s hf hpc hb => ?_⟩
  · rw [decode_of_twoBytes htwo, hpair]
  · rw [step_of_twoBytes hf hpc (by rw [hb, htwo]), hb, hpair]
    exact heffect _ (s.afterSchedule.setPc (s.pc + 2))

/-- Settles O24: each is the branch group's instruction of its low nibble, on the condition R102 to R110 gives it. -/
theorem flagBranches : Obligations.FlagBranches := by
  refine ⟨?_, ?_, ?_, ?_, ?_, ?_, ?_, ?_, ?_⟩
  · exact branches_of_branchIf (by decide) (by decide) (fun _ => rfl) exec_br (cond := fun _ => true) (by simp)
  · exact branches_of_branchIf (by decide) (by decide) (fun _ => rfl) exec_bne (by simp [condNE])
  · exact branches_of_branchIf (by decide) (by decide) (fun _ => rfl) exec_beq (by simp [condEQ])
  · exact branches_of_branchIf (by decide) (by decide) (fun _ => rfl) exec_bpl (by simp [condPL])
  · exact branches_of_branchIf (by decide) (by decide) (fun _ => rfl) exec_bmi (by simp [condMI])
  · exact branches_of_branchIf (by decide) (by decide) (fun _ => rfl) exec_bvc (by simp [condVC])
  · exact branches_of_branchIf (by decide) (by decide) (fun _ => rfl) exec_bvs (by simp [condVS])
  · exact branches_of_branchIf (by decide) (by decide) (fun _ => rfl) exec_bcc (by simp [condCC])
  · exact branches_of_branchIf (by decide) (by decide) (fun _ => rfl) exec_bcs (by simp [condCS])

/-- Settles O25: as O24, on the conditions R111 to R116 give. -/
theorem comparisonBranches : Obligations.ComparisonBranches := by
  refine ⟨?_, ?_, ?_, ?_, ?_, ?_⟩
  · exact branches_of_branchIf (by decide) (by decide) (fun _ => rfl) exec_bge (by simp [condGE])
  · exact branches_of_branchIf (by decide) (by decide) (fun _ => rfl) exec_blt (by simp [condLT])
  · exact branches_of_branchIf (by decide) (by decide) (fun _ => rfl) exec_bgt (by simp [condGT])
  · exact branches_of_branchIf (by decide) (by decide) (fun _ => rfl) exec_ble (by simp [condLE])
  · exact branches_of_branchIf (by decide) (by decide) (fun _ => rfl) exec_bhi (by simp [condHI])
  · exact branches_of_branchIf (by decide) (by decide) (fun _ => rfl) exec_bls (by simp [condLS])

end Claims

/-! ## The conditions after CMP -/

namespace Machine

open Sys2Proof.Claims

/-- The sign of a difference is wrong exactly when the signed difference does not fit, so N and V together compare
signed numbers (R126, D17). -/
theorem sub_sign_ne_overflow_iff (a b : Word) :
    (a - b).getLsbD 15 ≠ outOfRange (a.toInt - b.toInt) ↔ a.toInt < b.toInt := by
  have ha := toInt_bounds a
  have hb := toInt_bounds b
  have hsign : (a - b).getLsbD 15 = decide ((a.toInt - b.toInt).bmod 65536 < 0) := by
    rw [← BitVec.msb_eq_getLsbD_last (x := a - b), BitVec.msb_eq_toInt, BitVec.toInt_sub]
  rw [hsign, outOfRange, ← Bool.decide_or, Ne, decide_eq_decide, Int.bmod]
  omega

theorem decide_eq_toInt (a b : Word) : decide (a = b) = decide (a.toInt = b.toInt) :=
  decide_eq_decide.mpr BitVec.toInt_inj.symm

theorem decide_eq_toNat (a b : Word) : decide (a = b) = decide (a.toNat = b.toNat) :=
  decide_eq_decide.mpr BitVec.toNat_inj.symm

theorem condEQ_cmpFlags (a b : Word) : condEQ (cmpFlags a b) = decide (a = b) := by rw [cmpFlags_eq, condEQ]
theorem condNE_cmpFlags (a b : Word) : condNE (cmpFlags a b) = !decide (a = b) := by rw [cmpFlags_eq, condNE]

theorem condLT_cmpFlags (a b : Word) : condLT (cmpFlags a b) = decide (a.toInt < b.toInt) := by
  rw [Bool.eq_iff_iff, cmpFlags_eq, condLT, bne_iff_ne, sub_sign_ne_overflow_iff, decide_eq_true_iff]

theorem condGE_cmpFlags (a b : Word) : condGE (cmpFlags a b) = decide (b.toInt ≤ a.toInt) := by
  have h : condGE (cmpFlags a b) = !condLT (cmpFlags a b) := by simp [condGE, condLT, bne]
  rw [h, condLT_cmpFlags, ← decide_not, decide_eq_decide, Int.not_lt]

theorem condGT_cmpFlags (a b : Word) : condGT (cmpFlags a b) = decide (b.toInt < a.toInt) := by
  have h : condGT (cmpFlags a b) = (condGE (cmpFlags a b) && condNE (cmpFlags a b)) := rfl
  rw [h, condGE_cmpFlags, condNE_cmpFlags, decide_eq_toInt, ← decide_not, ← Bool.decide_and, decide_eq_decide]
  omega

theorem condLE_cmpFlags (a b : Word) : condLE (cmpFlags a b) = decide (a.toInt ≤ b.toInt) := by
  have h : condLE (cmpFlags a b) = (condLT (cmpFlags a b) || condEQ (cmpFlags a b)) := rfl
  rw [h, condLT_cmpFlags, condEQ_cmpFlags, decide_eq_toInt, ← Bool.decide_or, decide_eq_decide]
  omega

theorem condCS_cmpFlags (a b : Word) : condCS (cmpFlags a b) = decide (a.toNat < b.toNat) := by
  rw [cmpFlags_eq, condCS]

theorem condCC_cmpFlags (a b : Word) : condCC (cmpFlags a b) = decide (b.toNat ≤ a.toNat) := by
  rw [cmpFlags_eq, condCC, ← decide_not, decide_eq_decide, Nat.not_lt]

theorem condHI_cmpFlags (a b : Word) : condHI (cmpFlags a b) = decide (b.toNat < a.toNat) := by
  have h : condHI (cmpFlags a b) = (condCC (cmpFlags a b) && condNE (cmpFlags a b)) := rfl
  rw [h, condCC_cmpFlags, condNE_cmpFlags, decide_eq_toNat, ← decide_not, ← Bool.decide_and, decide_eq_decide]
  omega

theorem condLS_cmpFlags (a b : Word) : condLS (cmpFlags a b) = decide (a.toNat ≤ b.toNat) := by
  have h : condLS (cmpFlags a b) = (condCS (cmpFlags a b) || condEQ (cmpFlags a b)) := rfl
  rw [h, condCS_cmpFlags, condEQ_cmpFlags, decide_eq_toNat, ← Bool.decide_or, decide_eq_decide]
  omega

end Machine

namespace Claims

open Sys2Proof.Machine

/-- Settles O26: CMP leaves the flags of its difference, on which each condition is its comparison. -/
theorem compareThenBranch : Obligations.CompareThenBranch := by
  intro src dst s t d h
  rw [exec_cmp] at h
  obtain ⟨sloc, s1, dloc, s2, hs, hd, rfl⟩ := twoOperand_next h
  refine ⟨sloc, s1, dloc, s2, ⟨hs, hd⟩, ?_⟩
  simp only [exec_beq, exec_bne, exec_bge, exec_blt, exec_bgt, exec_ble, exec_bhi, exec_bls, exec_bcc, exec_bcs,
    branchIf_eq, State.setFlags_flags, condEQ_cmpFlags, condNE_cmpFlags, condGE_cmpFlags, condLT_cmpFlags,
    condGT_cmpFlags, condLE_cmpFlags, condHI_cmpFlags, condLS_cmpFlags, condCC_cmpFlags, condCS_cmpFlags]
  simp

end Claims

end Sys2Proof
end

section
/-! JMP, SOB, JSR and RTS (43_control_flow.md R117 to R120). -/

namespace Sys2Proof

namespace Machine

open Sys2Proof.Claims

/-! ## The target of JMP and JSR -/

/-- Every mode but 000 resolves to an address (R73). -/
theorem resolve_mem_of_hasAddress {o : Operand} {s : State} (ha : o.hasAddress = true)
    (hf : o.fetchable s.pc = true) : ∃ a s1, resolve o s = .ok (.mem a, s1) := by
  obtain ⟨loc, s1, hr⟩ := resolve_of_fetchable hf
  cases loc with
  | mem a => exact ⟨a, s1, hr⟩
  | reg r =>
    obtain ⟨hmode, -, -⟩ := resolve_reg hr
    simp [Operand.hasAddress, hmode] at ha

theorem hasAddress_of_resolve_mem {o : Operand} {s s1 : State} {a : Word} (h : resolve o s = .ok (.mem a, s1)) :
    o.hasAddress = true := by
  obtain ⟨m, r⟩ := o
  cases m with
  | register => cases h
  | postInc | preDec | indexed | indirect | postIncIndirect | preDecIndirect | indexedIndirect => rfl

theorem resolveAddress_of_resolve {o : Operand} {s s1 : State} {a : Word} (m : String)
    (h : resolve o s = .ok (.mem a, s1)) : resolveAddress m o s = .ok (a, s1) := by
  simp [resolveAddress, h]

theorem exec_jmp_of_resolve {o : Operand} {s s1 : State} {a : Word} (h : resolve o s = .ok (.mem a, s1)) :
    exec (.jmp o) s = .next (s1.setPc a) := by
  simp [exec, execJmp, resolveAddress_of_resolve "JMP" h]

theorem exec_jmp_next {o : Operand} {s t : State} (h : exec (.jmp o) s = .next t) :
    ∃ a s1, resolve o s = .ok (.mem a, s1) ∧ t = s1.setPc a := by
  simp only [exec, execJmp] at h
  split at h
  · cases h
  · next a s1 hr => cases h; exact ⟨a, s1, resolveAddress_ok hr, rfl⟩

/-! ## Push -/

/-- `Push(v)` is R6 down by 2 and `OpWrite` there (R101). -/
theorem State.push_eq (s : State) (v : Word) : s.push v = (s.setReg .r6 (s.sp - 2)).opWrite (s.sp - 2) v := by
  simp [State.push, State.sp_eq]

/-- What the stack word reads after a push. -/
theorem State.opRead_push (s : State) (v : Word) :
    (s.push v).opRead (s.sp - 2) = if (s.sp - 2).toNat < 0xFFC0 then v else BitVec.ofNat 16 (v.toNat % 256) := by
  rw [State.push_eq, State.opRead_opWrite]

/-! ## JSR -/

/-- The state after a call of `a` with link register `l`, from the state in which the target is resolved (R119). -/
def called (l : Reg) (a : Word) (s : State) : State := ((s.push (s.reg l)).setReg l s.pc).setPc a

theorem exec_jsr_of_resolve {o : Operand} {s s1 : State} {a : Word} (l : Reg)
    (h : resolve o s = .ok (.mem a, s1)) : exec (.jsr l o) s = .next (called l a s1) := by
  simp [exec, execJsr, resolveAddress_of_resolve "JSR" h, called]

theorem exec_jsr_next {l : Reg} {o : Operand} {s t : State} (h : exec (.jsr l o) s = .next t) :
    ∃ a s1, resolve o s = .ok (.mem a, s1) ∧ t = called l a s1 := by
  simp only [exec, execJsr] at h
  split at h
  · cases h
  · next a s1 hr => cases h; exact ⟨a, s1, resolveAddress_ok hr, by rw [called, State.pc_push]⟩

theorem called_pc (l : Reg) (a : Word) (s : State) : (called l a s).pc = a := State.pc_setPc _ a

/-- The registers after a call: the jump is written last, then the link, then the stack pointer. -/
theorem called_reg (l : Reg) (a : Word) (s : State) (q : Reg) :
    (called l a s).reg q =
      if q = .r7 then a else if q = l then s.pc else if q = .r6 then s.sp - 2 else s.reg q := by
  rw [called, State.reg_setPc, State.reg_setReg, State.reg_push]
  rfl

theorem called_sp {l : Reg} (hl : l ≠ .r6) (a : Word) (s : State) : (called l a s).sp = s.sp - 2 := by
  rw [State.sp_eq, called_reg, if_neg (by decide), if_neg hl.symm, if_pos rfl]

theorem called_link {l : Reg} (hl : l ≠ .r7) (a : Word) (s : State) : (called l a s).reg l = s.pc := by
  rw [called_reg, if_neg hl, if_pos rfl]

theorem called_opRead (l : Reg) (a : Word) (s : State) :
    (called l a s).opRead (s.sp - 2) =
      if (s.sp - 2).toNat < 0xFFC0 then s.reg l else BitVec.ofNat 16 ((s.reg l).toNat % 256) := by
  rw [called, State.setPc_opRead, State.setReg_opRead, State.opRead_push]

theorem called_byte (l : Reg) (a : Word) (s : State) {b : Word} (h : b ∉ storedAddresses (s.sp - 2)) :
    (called l a s).byte b = s.byte b := by
  rw [called, State.setPc_byte, State.setReg_byte, State.byte_push_other s _ h]

/-- A call writes neither a flag, nor `halted`, nor the model's own fields. -/
theorem called_keeps (l : Reg) (a : Word) (s : State) :
    (called l a s).flags = s.flags ∧ (called l a s).halted = s.halted ∧ (called l a s).config = s.config ∧
      (called l a s).schedule = s.schedule := by
  simp [called]

/-! ## RTS and SOB -/

theorem exec_rts (l : Reg) (s : State) : exec (.rts l) s = .next (s.returnVia l) := rfl

/-- The registers after a return: the link is written last, then the stack pointer, then R7 (R120). -/
theorem State.reg_returnVia (s : State) (l q : Reg) :
    (s.returnVia l).reg q =
      if q = l then s.opRead s.sp else if q = .r6 then s.sp + 2 else if q = .r7 then s.reg l else s.reg q := by
  have hsp : (s.setPc (s.reg l)).reg .r6 = s.sp := State.reg_setPc_ne s _ (by decide)
  rw [State.returnVia_eq, hsp, State.reg_setReg, State.reg_setReg, State.reg_setPc]

theorem State.returnVia_keeps (s : State) (l : Reg) :
    (s.returnVia l).mem = s.mem ∧ (s.returnVia l).flags = s.flags ∧ (s.returnVia l).halted = s.halted ∧
      (s.returnVia l).config = s.config ∧ (s.returnVia l).schedule = s.schedule := by
  simp [State.returnVia_eq]

/-- SOB counts its register down and subtracts its signed displacement unless the register became 0 (R118). -/
theorem exec_sob (r : Reg) (d : Byte) (s : State) :
    exec (.sob r d) s =
      .next (if s.reg r = 1 then s.setReg r (s.reg r - 1)
        else displaced (s.setReg r (s.reg r - 1)) (-d.toInt)) := by
  have hzero : s.reg r - 1 = 0 ↔ s.reg r = 1 := sub_eq_zero
  have hback (t : State) : t.pc - d.signExtend 16 = BitVec.ofInt 16 (t.pc.toInt + -d.toInt) := by
    rw [BitVec.ofInt_add, BitVec.ofInt_toInt, BitVec.ofInt_neg, BitVec.sub_eq_add_neg]
    rfl
  simp only [exec, execSob, State.reg_setReg_same, hzero, displaced, hback]

end Machine

namespace Claims

open Sys2Proof.Machine

/-- Settles O27. -/
theorem jmpGoesToAddress : Obligations.JmpGoesToAddress := by
  intro o s ha hf
  obtain ⟨a, s1, hr⟩ := resolve_mem_of_hasAddress ha hf
  exact ⟨a, s1, hr, exec_jmp_of_resolve hr⟩

/-- Settles O28. -/
theorem sobCountsDown : Obligations.SobCountsDown := exec_sob

/-- Settles O29: the state after the call is `called`, whose registers and bytes the lemmas about it give. -/
theorem jsrLinks : Obligations.JsrLinks := by
  intro l o s ha hf
  obtain ⟨a, s1, hr⟩ := resolve_mem_of_hasAddress ha hf
  obtain ⟨-, hflags, hhalted, -⟩ := resolve_ok hr
  obtain ⟨hflags', hhalted', -⟩ := called_keeps l a s1
  refine ⟨a, s1, called l a s1, hr, exec_jsr_of_resolve l hr, called_pc l a s1, fun h => called_link h a s1,
    fun h => called_sp h a s1, fun q hl h6 h7 => ?_, called_opRead l a s1, fun b hb => ?_,
    hflags'.trans hflags, hhalted'.trans hhalted⟩
  · rw [called_reg, if_neg h7, if_neg hl, if_neg h6]
  · rw [called_byte l a s1 hb, resolve_byte hr]

/-- Settles O30. -/
theorem rtsReturns : Obligations.RtsReturns := by
  intro l s
  obtain ⟨hmem, hflags, hhalted, -⟩ := State.returnVia_keeps s l
  refine ⟨s.returnVia l, exec_rts l s, ?_, fun _ => ?_, fun h => ?_, fun q hl h6 h7 => ?_, hmem, hflags, hhalted⟩
  · rw [State.pc_eq, State.reg_returnVia]
    simp only [eq_comm, reduceCtorEq, if_false, if_true]
  · rw [State.reg_returnVia, if_pos rfl]
  · rw [State.sp_eq, State.reg_returnVia, if_neg h.symm, if_pos rfl]
  · rw [State.reg_returnVia, if_neg hl, if_neg h6, if_neg h7]

/-- Settles O31: the return reads the stack word the call stored, which below FFC0h is the whole link value. -/
theorem callThenReturn : Obligations.CallThenReturn := by
  intro l o a s s1 t u hl6 hr hstack ht hsp hword hlink
  rw [exec_jsr_of_resolve l hr] at ht
  cases ht
  rw [called_sp hl6, called_opRead, if_pos hstack] at hword
  rw [called_sp hl6] at hsp
  have hpopped : u.opRead u.sp = s1.reg l := by rw [hsp, hword]
  refine ⟨u.returnVia l, exec_rts l u, ?_, ?_, fun _ => ?_⟩
  · rw [State.pc_eq, State.reg_returnVia]
    by_cases h7 : l = .r7
    · rw [if_pos h7.symm, hpopped, h7, State.pc_eq]
    · rw [if_neg (Ne.symm h7), if_neg (by decide), if_pos rfl, hlink h7, called_link h7]
  · rw [State.sp_eq, State.reg_returnVia, if_neg hl6.symm, if_pos rfl, hsp, BitVec.sub_add_cancel]
  · rw [State.reg_returnVia, if_pos rfl, hpopped]

end Claims

end Sys2Proof
end

section
/-! The five families of instructions, and what an instruction of each that answers a next state has done. -/

namespace Sys2Proof.Claims

open Sys2Proof.Machine

/-- Every instruction belongs to a family. -/
theorem instr_families (i : Instr) :
    isGeneral i = true ∨ isControlFlow i = true ∨ isOneOperand i = true ∨ isTwoOperand i = true ∨
      isReserved i = true := by
  cases i <;> simp [isGeneral, isControlFlow, isOneOperand, isTwoOperand, isReserved]

theorem exec_isReserved {i : Instr} (hi : isReserved i = true) (s : State) :
    ∃ b ∈ reservedBytes, exec i s = .refused (.reservedOpcode b) := by
  cases i with
  | reserved3F => exact ⟨0x3F, by decide, rfl⟩
  | reserved8C => exact ⟨0x8C, by decide, rfl⟩
  | reserved8D => exact ⟨0x8D, by decide, rfl⟩
  | reserved8E => exact ⟨0x8E, by decide, rfl⟩
  | reserved8F => exact ⟨0x8F, by decide, rfl⟩
  | _ => cases hi

/-- A one-operand instruction is the one-operand sequence, with an operation that TST alone makes the identity; the
others store to their operand (R130). -/
theorem exec_isOneOperand {i : Instr} (hi : isOneOperand i = true) (s : State) :
    ∃ o f, i.operands = [o] ∧ exec i s = oneOperand o f s ∧
      ((i = .tst o ∧ ∀ v fl, (f v fl).1 = v) ∨
        (writtenRegs i = steppedReg o ++ destReg o ∧ storedBy i s = storedVia o s)) := by
  cases i with
  | tst o => exact ⟨o, tstOp, rfl, rfl, .inl ⟨rfl, fun _ _ => rfl⟩⟩
  | clr o => exact ⟨o, clrOp, rfl, rfl, .inr ⟨rfl, rfl⟩⟩
  | not o => exact ⟨o, notOp, rfl, rfl, .inr ⟨rfl, rfl⟩⟩
  | inc o => exact ⟨o, incOp, rfl, rfl, .inr ⟨rfl, rfl⟩⟩
  | dec o => exact ⟨o, decOp, rfl, rfl, .inr ⟨rfl, rfl⟩⟩
  | neg o => exact ⟨o, negOp, rfl, rfl, .inr ⟨rfl, rfl⟩⟩
  | ror o => exact ⟨o, rorOp, rfl, rfl, .inr ⟨rfl, rfl⟩⟩
  | rol o => exact ⟨o, rolOp, rfl, rfl, .inr ⟨rfl, rfl⟩⟩
  | asr o => exact ⟨o, asrOp, rfl, rfl, .inr ⟨rfl, rfl⟩⟩
  | asl o => exact ⟨o, aslOp, rfl, rfl, .inr ⟨rfl, rfl⟩⟩
  | adc o => exact ⟨o, adcOp, rfl, rfl, .inr ⟨rfl, rfl⟩⟩
  | sbc o => exact ⟨o, sbcOp s.config.sbcCMode, rfl, rfl, .inr ⟨rfl, rfl⟩⟩
  | _ => cases hi

/-- The own part of a two-operand instruction writes flags alone, as CMP's does, or the destination and flags; where
C is not among the flags written it is the old one (R15, R122). -/
def OwnPart (i : Instr) (src dst : Operand) (k : Word → Loc → State → State) : Prop :=
  ∀ v dloc t, ∃ f, ((writtenFlags i).c = false → f.c = t.flags.c) ∧
    ((i = .cmp src dst ∧ k v dloc t = t.setFlags f) ∨
      ((writtenRegs i = steppedReg src ++ steppedReg dst ++ destReg dst ∧
          ∀ s s1 sloc, resolve src s = .ok (sloc, s1) → storedBy i s = storedVia dst s1) ∧
        ∃ w, k v dloc t = (t.locWrite dloc w).setFlags f))

theorem ownPart_combine {i : Instr} {src dst : Operand} {f : Word → Word → Flags → Word × Flags}
    (hregs : writtenRegs i = steppedReg src ++ steppedReg dst ++ destReg dst)
    (hstored : ∀ s s1 sloc, resolve src s = .ok (sloc, s1) → storedBy i s = storedVia dst s1)
    (hc : (writtenFlags i).c = false → ∀ d v fl, (f d v fl).2.c = fl.c) : OwnPart i src dst (combine f) :=
  fun _ _ _ => ⟨_, fun h => hc h _ _ _, .inr ⟨⟨hregs, hstored⟩, _, rfl⟩⟩

/-- A two-operand instruction is the two-operand sequence with its own part (R122). -/
theorem exec_isTwoOperand {i : Instr} (hi : isTwoOperand i = true) :
    ∃ src dst k, i.operands = [src, dst] ∧ (∀ s, exec i s = twoOperand src dst k s) ∧ OwnPart i src dst k := by
  cases i with
  | mov src dst =>
    refine ⟨src, dst, _, rfl, exec_mov src dst,
      fun v dloc t => ⟨movFlags v t.flags, fun _ => rfl, .inr ⟨⟨rfl, ?_⟩, v, rfl⟩⟩⟩
    exact fun s s1 sloc h => by simp [storedBy, h]
  | cmp src dst =>
    exact ⟨src, dst, _, rfl, exec_cmp src dst,
      fun v dloc t => ⟨cmpFlags v (t.locRead dloc), by simp [writtenFlags], .inl ⟨rfl, rfl⟩⟩⟩
  | add src dst =>
    exact ⟨src, dst, _, rfl, exec_add src dst,
      ownPart_combine rfl (fun s s1 sloc h => by simp [storedBy, h]) (by simp [writtenFlags])⟩
  | sub src dst =>
    exact ⟨src, dst, _, rfl, exec_sub src dst,
      ownPart_combine rfl (fun s s1 sloc h => by simp [storedBy, h]) (by simp [writtenFlags])⟩
  | and src dst =>
    exact ⟨src, dst, _, rfl, exec_and src dst,
      ownPart_combine rfl (fun s s1 sloc h => by simp [storedBy, h]) (fun _ _ _ _ => rfl)⟩
  | or src dst =>
    exact ⟨src, dst, _, rfl, exec_or src dst,
      ownPart_combine rfl (fun s s1 sloc h => by simp [storedBy, h]) (fun _ _ _ _ => rfl)⟩
  | _ => cases hi

/-- The branches are `branchIf` on some condition. -/
def isBranch (i : Instr) : Prop := ∃ d, ∀ s, ∃ cond, exec i s = branchIf cond d s

/-- Control flow is a branch, or one of JMP, SOB, JSR and RTS. -/
theorem isControlFlow_cases {i : Instr} (hi : isControlFlow i = true) :
    isBranch i ∨ (∃ o, i = .jmp o) ∨ (∃ r d, i = .sob r d) ∨ (∃ l o, i = .jsr l o) ∨ ∃ l, i = .rts l := by
  cases i with
  | br d => exact .inl ⟨d, fun s => ⟨_, exec_br d s⟩⟩
  | bne d => exact .inl ⟨d, fun s => ⟨_, exec_bne d s⟩⟩
  | beq d => exact .inl ⟨d, fun s => ⟨_, exec_beq d s⟩⟩
  | bpl d => exact .inl ⟨d, fun s => ⟨_, exec_bpl d s⟩⟩
  | bmi d => exact .inl ⟨d, fun s => ⟨_, exec_bmi d s⟩⟩
  | bvc d => exact .inl ⟨d, fun s => ⟨_, exec_bvc d s⟩⟩
  | bvs d => exact .inl ⟨d, fun s => ⟨_, exec_bvs d s⟩⟩
  | bcc d => exact .inl ⟨d, fun s => ⟨_, exec_bcc d s⟩⟩
  | bcs d => exact .inl ⟨d, fun s => ⟨_, exec_bcs d s⟩⟩
  | bge d => exact .inl ⟨d, fun s => ⟨_, exec_bge d s⟩⟩
  | blt d => exact .inl ⟨d, fun s => ⟨_, exec_blt d s⟩⟩
  | bgt d => exact .inl ⟨d, fun s => ⟨_, exec_bgt d s⟩⟩
  | ble d => exact .inl ⟨d, fun s => ⟨_, exec_ble d s⟩⟩
  | bhi d => exact .inl ⟨d, fun s => ⟨_, exec_bhi d s⟩⟩
  | bls d => exact .inl ⟨d, fun s => ⟨_, exec_bls d s⟩⟩
  | jmp o => exact .inr (.inl ⟨o, rfl⟩)
  | sob r d => exact .inr (.inr (.inl ⟨r, d, rfl⟩))
  | jsr l o => exact .inr (.inr (.inr (.inl ⟨l, o, rfl⟩)))
  | rts l => exact .inr (.inr (.inr (.inr ⟨l, rfl⟩)))
  | _ => cases hi

/-- The general instructions change flags or `halted`, and HLT alone the latter. -/
theorem exec_isGeneral {i : Instr} {s t : State} (hi : isGeneral i = true) (h : exec i s = .next t) :
    t = s ∨ (i = .hlt ∧ t = s.halt) ∨
      ∃ m, (i = .ccc m ∧ t = s.setFlags (clearFlags m s.flags)) ∨
        (i = .scc m ∧ t = s.setFlags (raiseFlags m s.flags)) := by
  cases i with
  | nop => cases h; exact .inl rfl
  | hlt => cases h; exact .inr (.inl ⟨rfl, rfl⟩)
  | ccc m => cases h; exact .inr (.inr ⟨m, .inl ⟨rfl, rfl⟩⟩)
  | scc m => cases h; exact .inr (.inr ⟨m, .inr ⟨rfl, rfl⟩⟩)
  | _ => cases hi

end Sys2Proof.Claims
end

section
/-! Frames (10_state.md section 3): what each family leaves unchanged. -/

namespace Sys2Proof

namespace Machine

/-! ## Writing back what was read -/

/-- An operand written back as it was read changes no byte (R29, R30). -/
theorem State.byte_opWrite_opRead (s : State) (a b : Word) : (s.opWrite a (s.opRead a)).byte b = s.byte b := by
  by_cases h : a.toNat < 0xFFC0
  · have hhigh : highByte (s.memWord a) = s.byte a := BitVec.extractLsb'_append_eq_left
    have hlow : lowByte (s.memWord a) = s.byte (a + 1) := BitVec.extractLsb'_append_eq_right
    rw [State.opWrite_of_lt s _ h, State.opRead_of_lt s h, State.byte_setMemWord, hhigh, hlow]
    split
    · next hb => rw [hb]
    · split
      · next hb => rw [hb]
      · rfl
  · have hge : 0xFFC0 ≤ a.toNat := Nat.not_lt.mp h
    have hlow : lowByte ((s.byte a).setWidth 16) = s.byte a := by
      rw [lowByte, ← BitVec.setWidth_eq_extractLsb' (by decide)]
      simp
    rw [State.opWrite_of_ge s _ hge, State.opRead_of_ge s hge, hlow, State.byte_setByte]
    split
    · next hb => rw [hb]
    · rfl

theorem State.byte_locWrite_locRead (s : State) (loc : Loc) (a : Word) :
    (s.locWrite loc (s.locRead loc)).byte a = s.byte a := by
  cases loc with
  | reg r => rfl
  | mem b => exact State.byte_opWrite_opRead s b a

theorem State.reg_locWrite_locRead (s : State) (loc : Loc) (r : Reg) :
    (s.locWrite loc (s.locRead loc)).reg r = s.reg r := by
  cases loc with
  | reg q =>
    rw [State.locWrite_reg, State.reg_setReg, State.locRead_reg]
    split
    · next hq => rw [hq]
    · rfl
  | mem b => exact State.opWrite_reg s b _ r

end Machine

namespace Claims

open Sys2Proof.Machine

/-- A frame without flags: what control flow keeps. -/
theorem frame_of_keeps {i : Instr} {s t : State} (hreg : ∀ r, r ≠ .r7 → r ∉ writtenRegs i → t.reg r = s.reg r)
    (hbyte : ∀ a, a ∉ storedBy i s → t.byte a = s.byte a)
    (hkeeps : t.flags = s.flags ∧ t.halted = s.halted ∧ t.config = s.config ∧ t.schedule = s.schedule) :
    Frame i s t := by
  obtain ⟨hflags, hhalted, hconfig, hschedule⟩ := hkeeps
  refine ⟨hreg, hbyte, ?_, ?_, ?_, ?_, fun _ => hhalted, hconfig, hschedule⟩ <;> intro _ <;> rw [hflags]

/-! ## The general instructions -/

theorem clearFlags_keeps (m : FlagMask) (f : Flags) :
    (m.n = false → (clearFlags m f).n = f.n) ∧ (m.z = false → (clearFlags m f).z = f.z) ∧
      (m.v = false → (clearFlags m f).v = f.v) ∧ (m.c = false → (clearFlags m f).c = f.c) := by
  refine ⟨?_, ?_, ?_, ?_⟩ <;> intro h <;> simp [clearFlags, h]

theorem raiseFlags_keeps (m : FlagMask) (f : Flags) :
    (m.n = false → (raiseFlags m f).n = f.n) ∧ (m.z = false → (raiseFlags m f).z = f.z) ∧
      (m.v = false → (raiseFlags m f).v = f.v) ∧ (m.c = false → (raiseFlags m f).c = f.c) := by
  refine ⟨?_, ?_, ?_, ?_⟩ <;> intro h <;> simp [raiseFlags, h]

/-- Settles O43. -/
theorem generalFrame : Obligations.GeneralFrame := by
  intro i s t hi h
  rcases exec_isGeneral hi h with rfl | ⟨rfl, rfl⟩ | ⟨m, ⟨rfl, rfl⟩ | ⟨rfl, rfl⟩⟩
  · exact ⟨frame_of_keeps (fun _ _ _ => rfl) (fun _ _ => rfl) ⟨rfl, rfl, rfl, rfl⟩, rfl⟩
  · exact ⟨⟨fun _ _ _ => rfl, fun _ _ => rfl, fun _ => rfl, fun _ => rfl, fun _ => rfl, fun _ => rfl,
      fun hne => absurd rfl hne, rfl, rfl⟩, rfl⟩
  · obtain ⟨hn, hz, hv, hc⟩ := clearFlags_keeps m s.flags
    exact ⟨⟨fun _ _ _ => rfl, fun _ _ => rfl, hn, hz, hv, hc, fun _ => rfl, rfl, rfl⟩, rfl⟩
  · obtain ⟨hn, hz, hv, hc⟩ := raiseFlags_keeps m s.flags
    exact ⟨⟨fun _ _ _ => rfl, fun _ _ => rfl, hn, hz, hv, hc, fun _ => rfl, rfl, rfl⟩, rfl⟩

/-! ## Control flow -/

theorem frame_displaced (i : Instr) (s : State) (d : Int) : Frame i s (displaced s d) :=
  frame_of_keeps (fun _ h7 _ => State.reg_setPc_ne s _ h7) (fun _ _ => rfl) ⟨rfl, rfl, rfl, rfl⟩

theorem frame_branch {i : Instr} {s t : State} (hi : isBranch i) (h : exec i s = .next t) : Frame i s t := by
  obtain ⟨d, hi⟩ := hi
  obtain ⟨cond, hexec⟩ := hi s
  rw [hexec, branchIf_eq] at h
  cases h
  split
  · exact frame_displaced i s _
  · exact frame_of_keeps (fun _ _ _ => rfl) (fun _ _ => rfl) ⟨rfl, rfl, rfl, rfl⟩

theorem frame_jmp {o : Operand} {s t : State} (h : exec (.jmp o) s = .next t) : Frame (.jmp o) s t := by
  obtain ⟨a, s1, hr, rfl⟩ := exec_jmp_next h
  obtain ⟨-, hflags, hhalted, hconfig, hschedule, -⟩ := resolve_ok hr
  refine frame_of_keeps (fun r h7 hw => ?_) (fun b _ => resolve_byte hr b) ⟨hflags, hhalted, hconfig, hschedule⟩
  rw [State.reg_setPc_ne s1 a h7, resolve_reg_other hr h7 hw]

theorem frame_sob {r : Reg} {d : Byte} {s t : State} (h : exec (.sob r d) s = .next t) : Frame (.sob r d) s t := by
  have hstep (q : Reg) (hq : q ∉ writtenRegs (.sob r d)) (w : Word) : (s.setReg r w).reg q = s.reg q :=
    State.reg_setReg_ne s w (fun heq => hq (List.mem_singleton.mpr heq))
  rw [exec_sob] at h
  cases h
  split
  · exact frame_of_keeps (fun q _ hq => hstep q hq _) (fun _ _ => rfl) ⟨rfl, rfl, rfl, rfl⟩
  · refine frame_of_keeps (fun q h7 hq => ?_) (fun _ _ => rfl) ⟨rfl, rfl, rfl, rfl⟩
    rw [displaced, State.reg_setPc_ne _ _ h7, hstep q hq]

theorem frame_jsr {l : Reg} {o : Operand} {s t : State} (h : exec (.jsr l o) s = .next t) :
    Frame (.jsr l o) s t := by
  obtain ⟨a, s1, hr, rfl⟩ := exec_jsr_next h
  obtain ⟨-, hflags, hhalted, hconfig, hschedule, -⟩ := resolve_ok hr
  obtain ⟨hflags', hhalted', hconfig', hschedule'⟩ := called_keeps l a s1
  refine frame_of_keeps (fun q h7 hq => ?_) (fun b hb => ?_)
    ⟨hflags'.trans hflags, hhalted'.trans hhalted, hconfig'.trans hconfig, hschedule'.trans hschedule⟩
  · simp only [writtenRegs, List.mem_cons, not_or] at hq
    obtain ⟨hl, h6, hstepped⟩ := hq
    rw [called_reg, if_neg h7, if_neg hl, if_neg h6, resolve_reg_other hr h7 hstepped]
  · simp only [storedBy, hr] at hb
    rw [called_byte l a s1 hb, resolve_byte hr]

theorem frame_rts {l : Reg} {s t : State} (h : exec (.rts l) s = .next t) : Frame (.rts l) s t := by
  rw [exec_rts] at h
  cases h
  obtain ⟨hmem, hkeeps⟩ := State.returnVia_keeps s l
  refine frame_of_keeps (fun q h7 hq => ?_) (fun b _ => by rw [State.byte, hmem, State.byte]) hkeeps
  simp only [writtenRegs, List.mem_cons, List.not_mem_nil, or_false, not_or] at hq
  obtain ⟨hl, h6⟩ := hq
  rw [State.reg_returnVia, if_neg hl, if_neg h6, if_neg h7]

/-- Settles O44. -/
theorem controlFlowFrame : Obligations.ControlFlowFrame := by
  intro i s t hi h
  rcases isControlFlow_cases hi with hb | ⟨o, rfl⟩ | ⟨r, d, rfl⟩ | ⟨l, o, rfl⟩ | ⟨l, rfl⟩
  · exact frame_branch hb h
  · exact frame_jmp h
  · exact frame_sob h
  · exact frame_jsr h
  · exact frame_rts h

/-! ## Operands -/

/-- A resolved location written changes, of the registers and bytes, those of the destination specifier alone. -/
theorem reg_locWrite_of_resolve {o : Operand} {s s1 : State} {loc : Loc} (hr : resolve o s = .ok (loc, s1))
    {r : Reg} (hdest : r ∉ destReg o) (w : Word) : (s1.locWrite loc w).reg r = s1.reg r := by
  refine State.reg_locWrite_other s1 w fun hloc => hdest ?_
  subst hloc
  obtain ⟨hmode, hreg, -⟩ := resolve_reg hr
  simp [destReg, hmode, hreg]

theorem byte_locWrite_of_resolve {o : Operand} {s s1 : State} {loc : Loc} (hr : resolve o s = .ok (loc, s1))
    {a : Word} (ha : a ∉ storedVia o s) (w : Word) : (s1.locWrite loc w).byte a = s1.byte a := by
  simp only [storedVia, hr] at ha
  exact State.byte_locWrite_other s1 w ha

/-- A frame in which N, Z and V are written: what the one- and two-operand instructions keep. -/
theorem frame_of_operands {i : Instr} {s u : State} {f : Flags}
    (hi : isOneOperand i = true ∨ isTwoOperand i = true)
    (hreg : ∀ r, r ≠ .r7 → r ∉ writtenRegs i → u.reg r = s.reg r)
    (hbyte : ∀ a, a ∉ storedBy i s → u.byte a = s.byte a) (hc : (writtenFlags i).c = false → f.c = s.flags.c)
    (hkeeps : u.halted = s.halted ∧ u.config = s.config ∧ u.schedule = s.schedule) : Frame i s (u.setFlags f) := by
  obtain ⟨hhalted, hconfig, hschedule⟩ := hkeeps
  have hwritten : (writtenFlags i).n = true ∧ (writtenFlags i).z = true ∧ (writtenFlags i).v = true := by
    cases i <;> simp_all [isOneOperand, isTwoOperand, writtenFlags]
  obtain ⟨hn, hz, hv⟩ := hwritten
  exact ⟨hreg, hbyte, by simp [hn], by simp [hz], by simp [hv], hc, fun _ => hhalted, hconfig, hschedule⟩

theorem resolve_keeps {o : Operand} {s s1 : State} {loc : Loc} (hr : resolve o s = .ok (loc, s1)) :
    s1.halted = s.halted ∧ s1.config = s.config ∧ s1.schedule = s.schedule := by
  obtain ⟨-, -, hhalted, hconfig, hschedule, -⟩ := resolve_ok hr
  exact ⟨hhalted, hconfig, hschedule⟩

/-- Settles O45: the store goes to the resolved operand; TST's stores back what it read. -/
theorem oneOperandFrame : Obligations.OneOperandFrame := by
  intro i s t hi h
  obtain ⟨o, f, -, hexec, hwrites⟩ := exec_isOneOperand hi s
  obtain ⟨loc, s1, hr, rfl⟩ := oneOperand_next (hexec ▸ h)
  obtain ⟨hhalted, hconfig, hschedule⟩ := resolve_keeps hr
  have hflags : (writtenFlags i).c = true := by cases i <;> simp_all [isOneOperand, writtenFlags]
  refine frame_of_operands (.inl hi) (fun r h7 hw => ?_) (fun a ha => ?_) (by simp [hflags])
    (by simp [hhalted, hconfig, hschedule])
  · rcases hwrites with ⟨rfl, hid⟩ | ⟨hregs, -⟩
    · rw [hid, State.reg_locWrite_locRead, resolve_reg_other hr h7 hw]
    · rw [hregs, List.mem_append, not_or] at hw
      rw [reg_locWrite_of_resolve hr hw.2, resolve_reg_other hr h7 hw.1]
  · rcases hwrites with ⟨rfl, hid⟩ | ⟨-, hstored⟩
    · rw [hid, State.byte_locWrite_locRead, resolve_byte hr]
    · rw [hstored] at ha
      rw [byte_locWrite_of_resolve hr ha, resolve_byte hr]

/-- Settles O46: CMP's own part writes flags alone; the store of the others goes to the destination, resolved after
the source. -/
theorem twoOperandFrame : Obligations.TwoOperandFrame := by
  intro i s t hi h
  obtain ⟨src, dst, k, -, hexec, hown⟩ := exec_isTwoOperand hi
  obtain ⟨sloc, s1, dloc, s2, hs, hd, rfl⟩ := twoOperand_next (hexec s ▸ h)
  obtain ⟨hhalted1, hconfig1, hschedule1⟩ := resolve_keeps hs
  obtain ⟨hhalted2, hconfig2, hschedule2⟩ := resolve_keeps hd
  have hbyte (a : Word) : s2.byte a = s.byte a := by rw [resolve_byte hd, resolve_byte hs]
  have hreg {r : Reg} (h7 : r ≠ .r7) (hsrc : r ∉ steppedReg src) (hdst : r ∉ steppedReg dst) :
      s2.reg r = s.reg r := by rw [resolve_reg_other hd h7 hdst, resolve_reg_other hs h7 hsrc]
  obtain ⟨f, hc, hk⟩ := hown (s1.locRead sloc) dloc s2
  rw [resolved_flags ⟨hs, hd⟩] at hc
  rcases hk with ⟨rfl, hk⟩ | ⟨⟨hregs, hstored⟩, w, hk⟩ <;> rw [hk]
  · refine frame_of_operands (.inr hi) (fun r h7 hw => ?_) (fun a _ => hbyte a) hc
      ⟨hhalted2.trans hhalted1, hconfig2.trans hconfig1, hschedule2.trans hschedule1⟩
    simp only [writtenRegs, List.mem_append, not_or] at hw
    exact hreg h7 hw.1 hw.2
  · refine frame_of_operands (.inr hi) (fun r h7 hw => ?_) (fun a ha => ?_) hc
      (by simp [hhalted2, hconfig2, hschedule2, hhalted1, hconfig1, hschedule1])
    · simp only [hregs, List.mem_append, not_or] at hw
      obtain ⟨⟨hsrc, hdst⟩, hdest⟩ := hw
      rw [reg_locWrite_of_resolve hd hdest, hreg h7 hsrc hdst]
    · rw [hstored s s1 sloc hs] at ha
      rw [byte_locWrite_of_resolve hd ha, hbyte]

/-- The frame of every instruction that answers a next state. -/
theorem exec_frame {i : Instr} {s t : State} (h : exec i s = .next t) : Frame i s t := by
  rcases instr_families i with hi | hi | hi | hi | hi
  · exact (generalFrame i s t hi h).1
  · exact controlFlowFrame i s t hi h
  · exact oneOperandFrame i s t hi h
  · exact twoOperandFrame i s t hi h
  · obtain ⟨b, -, hexec⟩ := exec_isReserved hi s
    rw [hexec] at h
    cases h

end Claims

end Sys2Proof
end

section
/-! Memory's canonical form along every step (assumption log 9). -/

namespace Sys2Proof

namespace Claims

open Sys2Proof.Machine

theorem wf_called {s : State} (h : s.mem.wf) (l : Reg) (a : Word) : (called l a s).mem.wf := State.wf_push h _

theorem wf_controlFlow {i : Instr} {s t : State} (hi : isControlFlow i = true) (hwf : s.mem.wf)
    (h : exec i s = .next t) : t.mem.wf := by
  rcases isControlFlow_cases hi with ⟨d, hb⟩ | ⟨o, rfl⟩ | ⟨r, d, rfl⟩ | ⟨l, o, rfl⟩ | ⟨l, rfl⟩
  · obtain ⟨cond, hexec⟩ := hb s
    rw [hexec] at h
    cases h
    split <;> exact hwf
  · obtain ⟨a, s1, hr, rfl⟩ := exec_jmp_next h
    rw [State.setPc_mem, resolve_mem hr]
    exact hwf
  · rw [exec_sob] at h
    cases h
    split <;> exact hwf
  · obtain ⟨a, s1, hr, rfl⟩ := exec_jsr_next h
    exact wf_called (resolve_mem hr ▸ hwf) l a
  · rw [exec_rts] at h
    cases h
    rw [(State.returnVia_keeps s l).1]
    exact hwf

/-- Every instruction keeps memory's canonical form: what it stores, it stores by `OpWrite`. -/
theorem exec_keeps_wf {i : Instr} {s t : State} (hwf : s.mem.wf) (h : exec i s = .next t) : t.mem.wf := by
  rcases instr_families i with hi | hi | hi | hi | hi
  · rcases exec_isGeneral hi h with rfl | ⟨-, rfl⟩ | ⟨m, ⟨-, rfl⟩ | ⟨-, rfl⟩⟩ <;> exact hwf
  · exact wf_controlFlow hi hwf h
  · obtain ⟨o, f, -, hexec, -⟩ := exec_isOneOperand hi s
    obtain ⟨loc, s1, hr, rfl⟩ := oneOperand_next (hexec ▸ h)
    exact State.wf_locWrite (resolve_mem hr ▸ hwf) loc _
  · obtain ⟨src, dst, k, -, hexec, hown⟩ := exec_isTwoOperand hi
    obtain ⟨sloc, s1, dloc, s2, hs, hd, rfl⟩ := twoOperand_next (hexec s ▸ h)
    have hwf2 : s2.mem.wf := by rw [resolve_mem hd, resolve_mem hs]; exact hwf
    obtain ⟨f, -, ⟨-, hk⟩ | ⟨-, w, hk⟩⟩ := hown (s1.locRead sloc) dloc s2 <;> rw [hk]
    · exact hwf2
    · exact State.wf_locWrite hwf2 dloc w
  · obtain ⟨b, -, hexec⟩ := exec_isReserved hi s
    rw [hexec] at h
    cases h

/-- Settles O16: a halted turn changes nothing, an entry pushes, an instruction stores by `OpWrite`, and a device
writes bytes. -/
theorem stepKeepsMemoryCanonical : Obligations.StepKeepsMemoryCanonical := by
  intro s t hwf h
  have hwf' : s.afterSchedule.mem.wf := hwf
  rcases step_next h with ⟨-, hturn⟩ | ⟨-, rfl⟩ | ⟨k, -, rfl⟩
  · rcases processorTurn_next hturn with ⟨-, rfl⟩ | ⟨-, -, rfl⟩ | ⟨-, -, i, s1, hf, hexec⟩
    · exact hwf'
    · exact State.wf_interruptEntry hwf'
    · obtain ⟨hs1, -⟩ := State.fetchInstr_ok hf
      exact exec_keeps_wf (by rw [hs1]; exact hwf') hexec
  · exact State.wf_timerTurn hwf'
  · exact State.wf_keyTurn hwf' k

end Claims

end Sys2Proof
end

section
/-! What a step does to the parameters, the schedule and `halted`. -/

namespace Sys2Proof

/-- Only the first bytes F0h to FFh decode to HLT: the encoder writes HLT's high nibble back (R58, R62). -/
theorem highNibble_of_decodePair_hlt {b1 b2 : Byte} (h : decodePair b1 b2 = .hlt) : highNibble b1 = 15 := by
  have hcare : ∀ b : Byte, highNibble (b &&& Claims.careFirst b) = highNibble b := by decide
  have henc := Claims.encode_decodePair b1 b2
  have hhlt : encode .hlt = [nibbles 0xF 0] := rfl
  have hhead : nibbles 0xF 0 = b1 &&& Claims.careFirst b1 := by
    rw [h, hhlt] at henc
    split at henc <;> exact List.head_eq_of_cons_eq henc
  rw [← hcare b1, ← hhead, highNibble_nibbles]
  rfl

namespace Claims

open Sys2Proof.Machine

/-- A turn of the processor keeps the parameters and the schedule, and leaves `halted` unless it runs an HLT. -/
theorem processorTurn_keeps {s t : State} (h : processorTurn s = .next t) :
    t.config = s.config ∧ t.schedule = s.schedule ∧
      (t.halted = s.halted ∨ (s.halted = false ∧ highNibble (s.byte s.pc) = 15)) := by
  rcases processorTurn_next h with ⟨-, rfl⟩ | ⟨-, -, rfl⟩ | ⟨hh, -, i, s1, hf, hexec⟩
  · exact ⟨rfl, rfl, .inl rfl⟩
  · simp
  · obtain ⟨rfl, hi⟩ := State.fetchInstr_ok hf
    obtain ⟨-, -, -, -, -, -, hhalted, hconfig, hschedule⟩ := exec_frame hexec
    refine ⟨hconfig, hschedule, ?_⟩
    by_cases hlt : i = .hlt
    · exact .inr ⟨hh, highNibble_of_decodePair_hlt (hi.symm.trans hlt)⟩
    · exact .inl (hhalted hlt)

/-- A step keeps the parameters and spends one move; `halted` changes only where the processor runs an HLT. -/
theorem step_keeps {s t : State} (h : step s = .next t) :
    t.config = s.config ∧ t.schedule = s.schedule.tail ∧
      (t.halted = s.halted ∨ (s.processorMoves ∧ s.halted = false ∧ highNibble (s.byte s.pc) = 15)) := by
  rcases step_next h with ⟨hm, hturn⟩ | ⟨-, rfl⟩ | ⟨k, -, rfl⟩
  · obtain ⟨hconfig, hschedule, hhalted⟩ := processorTurn_keeps hturn
    exact ⟨hconfig, hschedule, hhalted.imp id fun hrun => ⟨hm, hrun⟩⟩
  · obtain ⟨-, -, hhalted, hconfig, hschedule⟩ := State.timerTurn_keeps s.afterSchedule
    exact ⟨hconfig, hschedule, .inl hhalted⟩
  · obtain ⟨-, -, hhalted, hconfig, hschedule⟩ := State.keyTurn_keeps s.afterSchedule k
    exact ⟨hconfig, hschedule, .inl hhalted⟩

/-- Settles O56. -/
theorem stepKeepsConfig : Obligations.StepKeepsConfig := by
  intro s t h
  obtain ⟨hconfig, hschedule, -⟩ := step_keeps h
  refine ⟨hconfig, fun m rest hs => ?_, fun n hs => ?_, fun hs => ?_⟩ <;> rw [hschedule, hs] <;> rfl

/-- Settles O57. -/
theorem onlyHltHalts : Obligations.OnlyHltHalts := by
  intro s t h
  obtain ⟨-, -, hhalted | ⟨hm, hrun, hnibble⟩⟩ := step_keeps h
  · exact ⟨hhalted.trans, fun hs ht => Bool.noConfusion (hs.symm.trans (hhalted.symm.trans ht))⟩
  · exact ⟨fun hs => Bool.noConfusion (hrun.symm.trans hs), fun _ _ => ⟨hm, hnibble⟩⟩

end Claims

end Sys2Proof
end

section
/-! Stops (00_scope.md section 7): when an instruction completes, and the reasons of a refusal. -/

namespace Sys2Proof

namespace Machine

open Sys2Proof.Claims

/-! ## Completion -/

theorem resolve_completes_iff (o : Operand) (s : State) :
    (∃ loc s1, resolve o s = .ok (loc, s1)) ↔ o.fetchable s.pc = true :=
  ⟨fun ⟨_, _, hr⟩ => fetchable_of_resolve hr, resolve_of_fetchable⟩

theorem oneOperand_completes_iff (o : Operand) (f : Word → Flags → Word × Flags) (s : State) :
    (∃ t, oneOperand o f s = .next t) ↔ extensionsFetchable [o] s.pc = true := by
  rw [extensionsFetchable, extensionsFetchable, Bool.and_true, ← resolve_completes_iff]
  constructor
  · rintro ⟨t, h⟩
    obtain ⟨loc, s1, hr, -⟩ := oneOperand_next h
    exact ⟨loc, s1, hr⟩
  · rintro ⟨loc, s1, hr⟩
    exact ⟨_, oneOperand_of_resolve hr rfl⟩

theorem twoOperand_completes_iff (src dst : Operand) (k : Word → Loc → State → State) (s : State) :
    (∃ t, twoOperand src dst k s = .next t) ↔ extensionsFetchable [src, dst] s.pc = true := by
  constructor
  · rintro ⟨t, h⟩
    obtain ⟨sloc, s1, dloc, s2, hs, hd, -⟩ := twoOperand_next h
    have hdst := fetchable_of_resolve hd
    rw [resolve_pc hs] at hdst
    simp [extensionsFetchable, fetchable_of_resolve hs, hdst]
  · intro h
    obtain ⟨sloc, s1, dloc, s2, hr⟩ := resolved_of_fetchable h
    exact ⟨_, twoOperand_of_resolved hr⟩

/-- A target resolves to an address when it is no register and its extension word can be fetched. -/
theorem target_completes_iff (o : Operand) (s : State) :
    (∃ a s1, resolve o s = .ok (.mem a, s1)) ↔ (o.hasAddress = true ∧ extensionsFetchable [o] s.pc = true) := by
  rw [extensionsFetchable, extensionsFetchable, Bool.and_true]
  exact ⟨fun ⟨_, _, hr⟩ => ⟨hasAddress_of_resolve_mem hr, fetchable_of_resolve hr⟩,
    fun ⟨ha, hf⟩ => resolve_mem_of_hasAddress ha hf⟩

theorem exec_jmp_completes_iff (o : Operand) (s : State) :
    (∃ t, exec (.jmp o) s = .next t) ↔ ∃ a s1, resolve o s = .ok (.mem a, s1) := by
  constructor
  · rintro ⟨t, h⟩
    obtain ⟨a, s1, hr, -⟩ := exec_jmp_next h
    exact ⟨a, s1, hr⟩
  · rintro ⟨a, s1, hr⟩
    exact ⟨_, exec_jmp_of_resolve hr⟩

theorem exec_jsr_completes_iff (l : Reg) (o : Operand) (s : State) :
    (∃ t, exec (.jsr l o) s = .next t) ↔ ∃ a s1, resolve o s = .ok (.mem a, s1) := by
  constructor
  · rintro ⟨t, h⟩
    obtain ⟨a, s1, hr, -⟩ := exec_jsr_next h
    exact ⟨a, s1, hr⟩
  · rintro ⟨a, s1, hr⟩
    exact ⟨_, exec_jsr_of_resolve l hr⟩

end Machine

namespace Claims

open Sys2Proof.Machine

theorem isOneOperand_completes_iff {i : Instr} (hi : isOneOperand i = true) (s : State) :
    (∃ t, exec i s = .next t) ↔ extensionsFetchable i.operands s.pc = true := by
  obtain ⟨o, f, hops, hexec, -⟩ := exec_isOneOperand hi s
  rw [hops, hexec, oneOperand_completes_iff]

theorem isTwoOperand_completes_iff {i : Instr} (hi : isTwoOperand i = true) (s : State) :
    (∃ t, exec i s = .next t) ↔ extensionsFetchable i.operands s.pc = true := by
  obtain ⟨src, dst, k, hops, hexec, -⟩ := exec_isTwoOperand hi
  rw [hops, hexec, twoOperand_completes_iff]

/-- Settles O49: what can refuse is the resolving of the operands and the constructors without an operation. -/
theorem execCompletesExactly : Obligations.ExecCompletesExactly := by
  intro i s
  cases i with
  | nop | ccc m | scc m | hlt | sob r d | rts l => exact ⟨fun _ => ⟨rfl, rfl⟩, fun _ => ⟨_, rfl⟩⟩
  | br d | bne d | beq d | bpl d | bmi d | bvc d | bvs d | bcc d | bcs d =>
    exact ⟨fun _ => ⟨rfl, rfl⟩, fun _ => ⟨_, rfl⟩⟩
  | bge d | blt d | bgt d | ble d | bhi d | bls d => exact ⟨fun _ => ⟨rfl, rfl⟩, fun _ => ⟨_, rfl⟩⟩
  | reserved3F | reserved8C | reserved8D | reserved8E | reserved8F =>
    exact ⟨fun ⟨_, h⟩ => (nomatch h), fun ⟨h, _⟩ => (nomatch h)⟩
  | jmp o => exact (exec_jmp_completes_iff o s).trans (target_completes_iff o s)
  | jsr l o => exact (exec_jsr_completes_iff l o s).trans (target_completes_iff o s)
  | clr o | not o | inc o | dec o | neg o | tst o | ror o | rol o | asr o | asl o | adc o | sbc o =>
    exact (isOneOperand_completes_iff rfl s).trans (and_iff_right rfl).symm
  | mov src dst | add src dst | sub src dst | cmp src dst | and src dst | or src dst =>
    exact (isTwoOperand_completes_iff rfl s).trans (and_iff_right rfl).symm

/-! ## Reasons -/

/-- The reasons for a refusal the model has: three of the closed list (00_scope.md R8). -/
def ListedReason (e : Refusal) : Prop :=
  (∃ b ∈ reservedBytes, e = .reservedOpcode b) ∨ e = .noAddress "JMP" ∨ e = .noAddress "JSR" ∨
    ∃ a : Word, 0xFFBF ≤ a.toNat ∧ e = .fetchFromByteArea a

theorem listedReason_of_fetch {e : Refusal} (h : ∃ a : Word, 0xFFBF ≤ a.toNat ∧ e = .fetchFromByteArea a) :
    ListedReason e := .inr (.inr (.inr h))

theorem listedReason_of_resolve {o : Operand} {s : State} {e : Refusal} (h : resolve o s = .error e) :
    ListedReason e := by
  obtain ⟨-, hpc, he⟩ := resolve_error h
  exact listedReason_of_fetch ⟨_, hpc, he⟩

theorem listedReason_of_oneOperand {i : Instr} {s : State} {e : Refusal} (hi : isOneOperand i = true)
    (h : exec i s = .refused e) : ListedReason e := by
  obtain ⟨o, f, -, hexec, -⟩ := exec_isOneOperand hi s
  exact listedReason_of_resolve (oneOperand_refused (hexec ▸ h))

theorem listedReason_of_twoOperand {i : Instr} {s : State} {e : Refusal} (hi : isTwoOperand i = true)
    (h : exec i s = .refused e) : ListedReason e := by
  obtain ⟨src, dst, k, -, hexec, -⟩ := exec_isTwoOperand hi
  rcases twoOperand_refused (hexec s ▸ h) with hs | ⟨_, _, -, hd⟩
  · exact listedReason_of_resolve hs
  · exact listedReason_of_resolve hd

theorem listedReason_of_jmp {o : Operand} {s : State} {e : Refusal} (h : exec (.jmp o) s = .refused e) :
    ListedReason e := by
  simp only [exec, execJmp] at h
  split at h
  · next hr =>
    cases h
    exact (resolveAddress_error hr).elim listedReason_of_resolve fun hm => .inr (.inl hm.2)
  · cases h

theorem listedReason_of_jsr {l : Reg} {o : Operand} {s : State} {e : Refusal}
    (h : exec (.jsr l o) s = .refused e) : ListedReason e := by
  simp only [exec, execJsr] at h
  split at h
  · next hr =>
    cases h
    exact (resolveAddress_error hr).elim listedReason_of_resolve fun hm => .inr (.inr (.inl hm.2))
  · cases h

/-- An instruction refuses where an operand does, on a register target, or as a reserved constructor. -/
theorem listedReason_of_exec {i : Instr} {s : State} {e : Refusal} (h : exec i s = .refused e) : ListedReason e := by
  cases i with
  | nop | ccc m | scc m | hlt | sob r d | rts l => cases h
  | br d | bne d | beq d | bpl d | bmi d | bvc d | bvs d | bcc d | bcs d => cases h
  | bge d | blt d | bgt d | ble d | bhi d | bls d => cases h
  | reserved3F | reserved8C | reserved8D | reserved8E | reserved8F =>
    cases h
    exact .inl ⟨_, by decide, rfl⟩
  | jmp o => exact listedReason_of_jmp h
  | jsr l o => exact listedReason_of_jsr h
  | clr o | not o | inc o | dec o | neg o | tst o | ror o | rol o | asr o | asl o | adc o | sbc o =>
    exact listedReason_of_oneOperand rfl h
  | mov src dst | add src dst | sub src dst | cmp src dst | and src dst | or src dst =>
    exact listedReason_of_twoOperand rfl h

/-- A turn of the processor refuses only where the fetch or the instruction does. -/
theorem listedReason_of_processorTurn {s : State} {e : Refusal} (h : processorTurn s = .refused e) :
    ListedReason e := by
  unfold processorTurn at h
  split at h
  · cases h
  · split at h
    · cases h
    · unfold runInstr at h
      split at h
      · next hf =>
        cases h
        obtain ⟨a, ha, he⟩ := State.fetchInstr_error hf
        exact listedReason_of_fetch ⟨a, Nat.le_trans (by decide) ha, he⟩
      · exact listedReason_of_exec h

/-- Settles O50: `Fault` has no constructor, the devices' turns answer a next state, and the processor's refuses for a
listed reason. -/
theorem stopsAreTheClosedList : Obligations.StopsAreTheClosedList := by
  refine fun s => ⟨fun e => (nomatch e), fun e h => ?_⟩
  unfold step nextMove at h
  split at h
  · exact listedReason_of_processorTurn h
  · cases h
  · cases h

end Claims

end Sys2Proof
end

section
/-! Lengths (30_encoding.md R50, R65), and where a straight-line instruction leaves R7. -/

namespace Sys2Proof

theorem Operand.streamWords_le_one (o : Operand) : o.streamWords ≤ 1 := by
  obtain ⟨m, r⟩ := o
  cases m <;> cases r <;> decide

theorem Instr.length_of_operands_nil {i : Instr} (h : i.operands = []) : i.length = (encode i).length := by
  simp [Instr.length, h]

theorem Instr.length_of_operands_one {i : Instr} {o : Operand} (h : i.operands = [o]) :
    i.length = (encode i).length + 2 * o.streamWords := by
  simp [Instr.length, h]

theorem Instr.length_of_operands_two {i : Instr} {src dst : Operand} (h : i.operands = [src, dst]) :
    i.length = (encode i).length + 2 * (src.streamWords + dst.streamWords) := by
  simp [Instr.length, h]

namespace Claims

open Sys2Proof.Machine

/-- The lengths by the shape of the instruction: none of its operands, one or two step over a word each. -/
theorem length_mem (i : Instr) : i.length ∈ [1, 2, 4, 6] := by
  simp only [List.mem_cons, List.not_mem_nil, or_false]
  cases i with
  | nop | ccc m | scc m | hlt | rts l | reserved3F | reserved8C | reserved8D | reserved8E | reserved8F =>
    exact .inl rfl
  | sob r d | br d | bne d | beq d | bpl d | bmi d | bvc d | bvs d | bcc d | bcs d => exact .inr (.inl rfl)
  | bge d | blt d | bgt d | ble d | bhi d | bls d => exact .inr (.inl rfl)
  | jmp o | jsr l o | clr o | not o | inc o | dec o | neg o | tst o | ror o | rol o | asr o | asl o | adc o | sbc o =>
    have hword := o.streamWords_le_one
    rw [Instr.length_of_operands_one rfl]
    simp only [encode, List.length_cons, List.length_nil]
    omega
  | mov src dst | add src dst | sub src dst | cmp src dst | and src dst | or src dst =>
    have hsrc := src.streamWords_le_one
    have hdst := dst.streamWords_le_one
    rw [Instr.length_of_operands_two rfl]
    simp only [encode, encodeTwo, List.length_cons, List.length_nil]
    omega

/-- A specifier that moves R7 forward moves it over its own words (R75 to R82). -/
theorem pcAfter_of_movesForward {o : Operand} (h : movesForward o = true) (pc : Word) :
    o.pcAfter pc = pc + BitVec.ofNat 16 (2 * o.streamWords) := by
  obtain ⟨m, r⟩ := o
  cases m <;> cases r <;> simp_all [movesForward, Operand.pcAfter, Operand.streamWords]

/-- A destination that is not R7 leaves R7 when it is written. -/
theorem pc_locWrite_of_resolve {o : Operand} {s s1 : State} {loc : Loc} (hr : resolve o s = .ok (loc, s1))
    (hne : o ≠ { mode := .register, reg := .r7 }) (w : Word) : (s1.locWrite loc w).pc = s1.pc := by
  refine State.reg_locWrite_other s1 w fun hloc => hne ?_
  subst hloc
  obtain ⟨hmode, hreg, -⟩ := resolve_reg hr
  obtain ⟨m, r⟩ := o
  exact congrArg₂ Operand.mk hmode hreg.symm

/-- What makes an instruction straight-line, by its family. -/
theorem straightLine_cases {i : Instr} (h : straightLine i = true) :
    isGeneral i = true ∨
      ((isOneOperand i = true ∨ isTwoOperand i = true) ∧ (∀ o ∈ i.operands, movesForward o = true) ∧
        i.operands.getLast? ≠ some { mode := .register, reg := .r7 }) := by
  simpa [straightLine, and_assoc] using h

theorem pc_of_isGeneral {i : Instr} {s t : State} (hi : isGeneral i = true) (h : exec i s = .next t) : t.pc = s.pc := by
  rcases exec_isGeneral hi h with rfl | ⟨-, rfl⟩ | ⟨m, ⟨-, rfl⟩ | ⟨-, rfl⟩⟩ <;> rfl

theorem operands_of_isGeneral {i : Instr} (hi : isGeneral i = true) : i.operands = [] := by
  cases i with
  | nop | hlt | ccc m | scc m => rfl
  | _ => cases hi

/-- A one-operand instruction leaves R7 where resolving its operand left it, unless the operand is R7. -/
theorem pc_of_isOneOperand {i : Instr} {o : Operand} {s t : State} (hi : isOneOperand i = true)
    (hops : i.operands = [o]) (hne : o ≠ { mode := .register, reg := .r7 }) (h : exec i s = .next t) :
    t.pc = o.pcAfter s.pc := by
  obtain ⟨o', f, hops', hexec, -⟩ := exec_isOneOperand hi s
  obtain rfl : o = o' := by simpa [hops] using hops'
  obtain ⟨loc, s1, hr, rfl⟩ := oneOperand_next (hexec ▸ h)
  rw [State.setFlags_pc, pc_locWrite_of_resolve hr hne, resolve_pc hr]

/-- A two-operand instruction leaves R7 where resolving its operands left it, unless the destination is R7. -/
theorem pc_of_isTwoOperand {i : Instr} {src dst : Operand} {s t : State} (hi : isTwoOperand i = true)
    (hops : i.operands = [src, dst]) (hne : dst ≠ { mode := .register, reg := .r7 }) (h : exec i s = .next t) :
    t.pc = dst.pcAfter (src.pcAfter s.pc) := by
  obtain ⟨src', dst', k, hops', hexec, hown⟩ := exec_isTwoOperand hi
  obtain ⟨rfl, rfl⟩ : src = src' ∧ dst = dst' := by simpa [hops] using hops'
  obtain ⟨sloc, s1, dloc, s2, hs, hd, rfl⟩ := twoOperand_next (hexec s ▸ h)
  have hpc : s2.pc = dst.pcAfter (src.pcAfter s.pc) := by rw [resolve_pc hd, resolve_pc hs]
  obtain ⟨f, -, ⟨-, hk⟩ | ⟨-, w, hk⟩⟩ := hown (s1.locRead sloc) dloc s2 <;> rw [hk, State.setFlags_pc]
  · exact hpc
  · rw [pc_locWrite_of_resolve hd hne, hpc]

/-- Settles O6: resolving moves R7 over the words of each operand in turn, and nothing later writes R7. -/
theorem straightLineAdvances : Obligations.StraightLineAdvances := by
  refine ⟨length_mem, fun i s t hline h => ?_⟩
  rcases straightLine_cases hline with hi | ⟨hi | hi, hfwd, hlast⟩
  · rw [Instr.length_of_operands_nil (operands_of_isGeneral hi), Nat.sub_self, pc_of_isGeneral hi h]
    exact (BitVec.add_zero _).symm
  · obtain ⟨o, f, hops, -⟩ := exec_isOneOperand hi s
    rw [hops] at hfwd hlast
    rw [Instr.length_of_operands_one hops, Nat.add_sub_cancel_left,
      pc_of_isOneOperand hi hops (fun heq => hlast (congrArg some heq)) h,
      pcAfter_of_movesForward (hfwd o (by simp))]
  · obtain ⟨src, dst, k, hops, -⟩ := exec_isTwoOperand hi
    rw [hops] at hfwd hlast
    rw [Instr.length_of_operands_two hops, Nat.add_sub_cancel_left,
      pc_of_isTwoOperand hi hops (fun heq => hlast (congrArg some heq)) h,
      pcAfter_of_movesForward (hfwd dst (by simp)), pcAfter_of_movesForward (hfwd src (by simp)), Nat.mul_add,
      BitVec.ofNat_add, BitVec.add_assoc]

end Claims

end Sys2Proof
end

section
/-! Interrupt entry and the return from it (60_exceptions.md R152, R153). -/

namespace Sys2Proof

namespace Machine

/-! ## The push of an entry -/

theorem State.byte_push (s : State) (v b : Word) : (s.push v).byte b = (s.opWrite (s.sp - 2) v).byte b := by
  rw [State.byte, State.mem_push, State.byte, State.sp_eq]

@[simp] theorem State.afterSchedule_sp (s : State) : s.afterSchedule.sp = s.sp := rfl

/-- The bytes after a store do not depend on whose move it is. -/
theorem State.byte_opWrite_afterSchedule (s : State) (a v b : Word) :
    (s.afterSchedule.opWrite a v).byte b = (s.opWrite a v).byte b := by
  rw [State.opWrite_eq, State.opWrite_eq]
  split <;> rfl

/-- What an operand reads depends on its two bytes alone. -/
theorem State.opRead_congr {s t : State} {a : Word} (h : t.byte a = s.byte a) (h' : t.byte (a + 1) = s.byte (a + 1)) :
    t.opRead a = s.opRead a := by
  rw [State.opRead, State.opRead, State.memWord, State.memWord, h, h']

/-! ## The bytes and registers after an entry -/

/-- An entry stores what the push of R7 stores, and sets IP in what INTS then is (R152). -/
theorem State.byte_interruptEntry (s : State) (b : Word) :
    s.interruptEntry.byte b =
      if b = 0xFFD8 then (s.opWrite (s.sp - 2) s.pc).ints ||| 0x80 else (s.opWrite (s.sp - 2) s.pc).byte b := by
  rw [State.interruptEntry_eq, State.setPc_byte, State.byte_setByte, State.ints, State.byte_push, State.byte_push,
    State.ints]

theorem State.byte_interruptEntry_ne (s : State) {b : Word} (h : b ≠ 0xFFD8) :
    s.interruptEntry.byte b = (s.opWrite (s.sp - 2) s.pc).byte b := by
  rw [State.byte_interruptEntry, if_neg h]

/-- R7 after an entry is the vector, read after the push (R18, R152). -/
theorem State.pc_interruptEntry (s : State) :
    s.interruptEntry.pc =
      (s.opWrite (s.sp - 2) s.pc).byte 0xFFBE ++ (s.opWrite (s.sp - 2) s.pc).byte 0xFFBF := by
  have hlow : (0xFFBE : Word) + 1 = 0xFFBF := rfl
  rw [State.interruptEntry_eq, State.pc_setPc, State.ivet, State.memWord, hlow,
    State.byte_setByte_other _ _ (by decide), State.byte_setByte_other _ _ (by decide), State.byte_push,
    State.byte_push]

theorem State.reg_interruptEntry (s : State) {r : Reg} (h7 : r ≠ .r7) :
    s.interruptEntry.reg r = if r = .r6 then s.sp - 2 else s.reg r := by
  rw [State.interruptEntry_eq, State.reg_setPc_ne _ _ h7, State.setByte_reg, State.reg_push, State.sp_eq]

theorem State.sp_interruptEntry (s : State) : s.interruptEntry.sp = s.sp - 2 := by
  rw [State.sp_eq, State.reg_interruptEntry s (by decide), if_pos rfl]

/-- Below the 8-bit area the stack word holds the R7 pushed: INTS is no byte of it. -/
theorem State.opRead_interruptEntry (s : State) (h : (s.sp - 2).toNat < 0xFFC0) :
    s.interruptEntry.opRead (s.sp - 2) = s.pc := by
  have hne : s.sp - 2 ≠ 0xFFD8 := fun heq => by rw [heq] at h; exact absurd h (by decide)
  have hne' : s.sp - 2 + 1 ≠ 0xFFD8 := fun heq => by bv_omega
  rw [State.opRead_congr (State.byte_interruptEntry_ne s hne) (State.byte_interruptEntry_ne s hne'),
    State.opRead_opWrite, if_pos h]

/-- IP is set, so no second entry follows (R149). -/
theorem State.takesInterrupt_interruptEntry (s : State) : s.interruptEntry.takesInterrupt = false := by
  have hset : (s.interruptEntry.byte 0xFFD8).getLsbD 7 = true := by
    rw [State.byte_interruptEntry, if_pos rfl, BitVec.getLsbD_or]
    simp
  rw [Bool.eq_false_iff, Ne, State.takesInterrupt_iff, hset]
  rintro ⟨-, -, h, -⟩
  cases h

/-- A step that takes an interrupt is an entry (R150, R152). -/
theorem step_of_takesInterrupt {s : State} (hm : s.processorMoves) (hh : s.halted = false)
    (hi : s.takesInterrupt = true) : step s = .next s.afterSchedule.interruptEntry := by
  rw [step_of_processorMoves hm]
  simp [processorTurn, hh, hi]

/-- A stack word that is neither of IVET's bytes leaves the vector alone. -/
theorem ivet_not_stored {a : Word} (h : a.toNat < 0xFFBD ∨ 0xFFC0 ≤ a.toNat) :
    (0xFFBE : Word) ∉ storedAddresses a ∧ (0xFFBF : Word) ∉ storedAddresses a := by
  rcases h with h | h
  · rw [storedAddresses_of_lt (by omega), List.mem_pair, List.mem_pair]
    bv_omega
  · rw [storedAddresses_of_ge h, List.mem_singleton, List.mem_singleton]
    bv_omega

end Machine

namespace Claims

open Sys2Proof.Machine

/-- Settles O53: the state is that of `interruptEntry`, whose bytes are those of the push but for INTS. -/
theorem interruptEntryEffect : Obligations.InterruptEntryEffect := by
  intro s hm hh hi
  refine ⟨s.afterSchedule.interruptEntry, step_of_takesInterrupt hm hh hi, ?_⟩
  intro a pushed
  have hbyte (b : Word) (hb : b ≠ 0xFFD8) : s.afterSchedule.interruptEntry.byte b = pushed.byte b :=
    (State.byte_interruptEntry_ne _ hb).trans (State.byte_opWrite_afterSchedule s a s.pc b)
  have hpc : s.afterSchedule.interruptEntry.pc = pushed.byte 0xFFBE ++ pushed.byte 0xFFBF := by
    rw [State.pc_interruptEntry, State.afterSchedule_sp, State.afterSchedule_pc, State.byte_opWrite_afterSchedule,
      State.byte_opWrite_afterSchedule]
  refine ⟨State.sp_interruptEntry _, hpc, fun ha => ?_, State.opRead_interruptEntry s.afterSchedule,
    fun ha hne => ?_, ?_, hbyte, fun b hb hstored => ?_, fun r h6 h7 => ?_, State.interruptEntry_flags _, ?_,
    State.takesInterrupt_interruptEntry _⟩
  · obtain ⟨hhigh, hlow⟩ := ivet_not_stored ha
    rw [hpc, State.byte_opWrite_other s s.pc hhigh, State.byte_opWrite_other s s.pc hlow]
    rfl
  · have hpushed : pushed = s.setByte a (lowByte s.pc) := State.opWrite_of_ge s s.pc ha
    rw [hbyte a hne, hpushed, State.byte_setByte_same]
    rfl
  · rw [State.ints, State.byte_interruptEntry, if_pos rfl, State.ints, State.ints]
    exact congrArg (· ||| 0x80) (State.byte_opWrite_afterSchedule s a s.pc 0xFFD8)
  · rw [hbyte b hb, State.byte_opWrite_other s s.pc hstored]
  · rw [State.reg_interruptEntry _ h7, if_neg h6, State.afterSchedule_reg]
  · rw [State.interruptEntry_halted, State.afterSchedule_halted, hh]

/-- Settles O54: RTS R7 pops into R7 the word the entry stored. -/
theorem interruptThenReturn : Obligations.InterruptThenReturn := by
  intro s t u hm hh hi hstack ht hsp hword
  rw [step_of_takesInterrupt hm hh hi] at ht
  cases ht
  rw [State.sp_interruptEntry] at hsp hword
  rw [State.opRead_interruptEntry s.afterSchedule hstack] at hword
  obtain ⟨hmem, hflags, -⟩ := State.returnVia_keeps u .r7
  refine ⟨u.returnVia .r7, exec_rts .r7 u, ?_, ?_, fun r h6 h7 => ?_, hmem, hflags⟩
  · rw [State.pc_eq, State.reg_returnVia, if_pos rfl, hsp, hword, State.afterSchedule_pc]
  · rw [State.sp_eq, State.reg_returnVia, if_neg (by decide), if_pos rfl, hsp, BitVec.sub_add_cancel,
      State.afterSchedule_sp]
  · rw [State.reg_returnVia, if_neg h7, if_neg h6, if_neg h7]

end Claims

end Sys2Proof
end

section
/-! The turns of the devices, byte by byte (60_exceptions.md R157, R158). -/

namespace Sys2Proof

namespace Machine

theorem step_of_timer {s : State} (h : s.schedule.head = .timer) : step s = .next s.afterSchedule.timerTurn := by
  simp only [step, nextMove, h]

theorem step_of_key {s : State} {k : Byte} (h : s.schedule.head = .key k) :
    step s = .next (s.afterSchedule.keyTurn k) := by
  simp only [step, nextMove, h]

/-- The timer's turn sets IPStim, where there are interrupts and the timer may fire (R157). -/
theorem State.byte_timerTurn (s : State) (a : Word) :
    s.timerTurn.byte a =
      if a = 0xFFD8 ∧ s.config.hasInterrupts = true ∧ (s.config.timerMayFire = .always ∨ s.byte 0xFFD7 ≠ 0)
        then s.byte a ||| 0x01 else s.byte a := by
  simp only [State.timerTurn, State.timerFires, ← State.timerMayFire_iff]
  by_cases hm : s.timerMayFire = true
  · simp only [hm, if_true, and_true, State.byte_raisePending]
  · simp only [hm, and_false, if_false, Bool.false_eq_true]

/-- A key that arrives is in TECDT, 80h in TECST, and IPStec set where there are interrupts (R158). -/
theorem State.byte_keyTurn (s : State) {k : Byte} (hk : s.config.keySet.holds k = true) (a : Word) :
    (s.keyTurn k).byte a =
      if a = 0xFFD8 ∧ s.config.hasInterrupts = true then s.byte a ||| 0x02
      else if a = 0xFFDA then 0x80 else if a = 0xFFDB then k else s.byte a := by
  rw [State.keyTurn, if_pos hk, State.keyArrives, State.byte_raisePending, State.byte_setByte, State.byte_setByte]
  by_cases ha : a = 0xFFD8
  · subst ha
    rfl
  · simp only [ha, false_and, if_false]

theorem State.keyTurn_of_not_holds (s : State) {k : Byte} (hk : s.config.keySet.holds k = false) : s.keyTurn k = s := by
  simp [State.keyTurn, hk]

end Machine

namespace Claims

open Sys2Proof.Machine

/-- Settles O55. -/
theorem deviceTurns : Obligations.DeviceTurns := by
  refine ⟨fun s h => ?_, fun s k h => ?_⟩
  · obtain ⟨hregs, hflags, hhalted, hconfig, hschedule⟩ := State.timerTurn_keeps s.afterSchedule
    exact ⟨_, step_of_timer h, hregs, hflags, hhalted, hconfig, hschedule, State.byte_timerTurn s.afterSchedule⟩
  · obtain ⟨hregs, hflags, hhalted, hconfig, hschedule⟩ := State.keyTurn_keeps s.afterSchedule k
    refine ⟨_, step_of_key h, hregs, hflags, hhalted, hconfig, hschedule, fun hin => ?_, fun l hl hout a => ?_⟩
    · have hholds : s.afterSchedule.config.keySet.holds k = true := (keySet_holds_iff _ k).mpr hin
      have hbyte := State.byte_keyTurn s.afterSchedule hholds
      refine ⟨hbyte 0xFFDB, hbyte 0xFFDA, ?_, fun a hdb hda hd8 => ?_⟩
      · rw [hbyte]
        simp
      · rw [hbyte, if_neg (fun h => hd8 h.1), if_neg hda, if_neg hdb, State.afterSchedule_byte]
    · have hout : s.afterSchedule.config.keySet.holds k = false := by simp [hl, KeySet.holds, hout]
      rw [State.keyTurn_of_not_holds _ hout, State.afterSchedule_byte]

end Claims

end Sys2Proof
end

section
/-! An instruction placed at R7 (assumption log 8): the state made ready to fetch, and the six bytes stored. -/

namespace Sys2Proof

/-- The instruction two bytes decode to does not depend on the bytes after them. -/
theorem decode_pair_of_decode {b1 b2 : Byte} {rest rest' : List Byte} {i : Instr}
    (h : decode (b1 :: b2 :: rest) = .ok (i, rest')) : ∃ r, decode [b1, b2] = .ok (i, r) := by
  cases hb : hasSecondByte b1 with
  | true =>
    rw [decode_of_twoBytes hb] at h ⊢
    cases h
    exact ⟨_, rfl⟩
  | false =>
    rw [decode_of_oneByte hb] at h ⊢
    cases h
    exact ⟨_, rfl⟩

/-- The encoder writes one byte or two (R50). -/
theorem length_encode (i : Instr) : (encode i).length = 1 ∨ (encode i).length = 2 := by
  cases i <;> simp [encode, encodeTwo]

theorem tableBytes_eq_cons (nbits w : Nat) : ∃ b1 b2 rest, tableBytes nbits w = b1 :: b2 :: rest := by
  unfold tableBytes
  split <;> exact ⟨_, _, _, rfl⟩

theorem decode_of_decodeTableWord {nbits w : Nat} {i : Instr} (h : decodeTableWord nbits w = some i) :
    ∃ rest, decode (tableBytes nbits w) = .ok (i, rest) := by
  unfold decodeTableWord at h
  split at h
  · next rest hd => cases h; exact ⟨rest, hd⟩
  · cases h

theorem length_tableBytes (nbits w : Nat) : (tableBytes nbits w).length = 6 := by
  unfold tableBytes
  split <;> rfl

namespace Machine

/-! ## Bytes stored one after the other -/

theorem State.storeBytes_keeps (s : State) (a : Word) (l : List Byte) :
    (s.storeBytes a l).regs = s.regs ∧ (s.storeBytes a l).flags = s.flags ∧
      (s.storeBytes a l).halted = s.halted ∧ (s.storeBytes a l).config = s.config ∧
      (s.storeBytes a l).schedule = s.schedule := by
  induction l generalizing s a with
  | nil => exact ⟨rfl, rfl, rfl, rfl, rfl⟩
  | cons b l ih => exact ih (s.setByte a b) (a + 1)

theorem add_ofNat_succ (a : Word) (k : Nat) : a + BitVec.ofNat 16 (k + 1) = a + 1 + BitVec.ofNat 16 k := by
  bv_omega

theorem State.byte_storeBytes_other (s : State) {a c : Word} {l : List Byte}
    (h : ∀ k < l.length, c ≠ a + BitVec.ofNat 16 k) : (s.storeBytes a l).byte c = s.byte c := by
  induction l generalizing s a with
  | nil => rfl
  | cons b l ih =>
    have hhead : c ≠ a := by simpa using h 0 (Nat.succ_pos _)
    have htail : ∀ k < l.length, c ≠ a + 1 + BitVec.ofNat 16 k := fun k hk => by
      have hnext := h (k + 1) (Nat.succ_lt_succ hk)
      rwa [add_ofNat_succ] at hnext
    exact (ih (s.setByte a b) htail).trans (State.byte_setByte_other s b hhead)

/-- The byte at each place of a list stored from an address on, as long as the list does not come round. -/
theorem State.byte_storeBytes (s : State) {a : Word} {l : List Byte} (hl : l.length ≤ 65536) {k : Nat}
    (hk : k < l.length) : l[k]? = some ((s.storeBytes a l).byte (a + BitVec.ofNat 16 k)) := by
  induction l generalizing s a k with
  | nil => cases hk
  | cons b l ih =>
    rw [List.length_cons] at hl hk
    cases k with
    | zero =>
      have hround : ∀ j < l.length, a + BitVec.ofNat 16 0 ≠ a + 1 + BitVec.ofNat 16 j := fun j hj => by bv_omega
      have hfirst : (s.storeBytes a (b :: l)).byte (a + BitVec.ofNat 16 0) =
          (s.setByte a b).byte (a + BitVec.ofNat 16 0) := State.byte_storeBytes_other (s.setByte a b) hround
      rw [hfirst, BitVec.add_zero, State.byte_setByte_same]
      rfl
    | succ j =>
      rw [add_ofNat_succ]
      exact ih (s.setByte a b) (by omega) (by omega)

/-! ## Ready to fetch -/

/-- Whether an interrupt is taken depends on the parameters, INTS and INTE alone (R149). -/
theorem State.takesInterrupt_congr {s t : State} (hc : t.config = s.config) (h8 : t.byte 0xFFD8 = s.byte 0xFFD8)
    (h9 : t.byte 0xFFD9 = s.byte 0xFFD9) : t.takesInterrupt = s.takesInterrupt := by
  rw [Bool.eq_iff_iff, State.takesInterrupt_iff, State.takesInterrupt_iff, hc, h8, h9]

theorem State.readyToFetch_keeps (s : State) :
    s.readyToFetch.regs = s.regs ∧ s.readyToFetch.flags = s.flags ∧ s.readyToFetch.halted = false ∧
      s.readyToFetch.config = s.config ∧ s.readyToFetch.schedule = .move .processor s.schedule := by
  unfold State.readyToFetch
  dsimp only
  split <;> exact ⟨rfl, rfl, rfl, rfl, rfl⟩

theorem State.byte_readyToFetch (s : State) {a : Word} (h : a ≠ 0xFFD9) : s.readyToFetch.byte a = s.byte a := by
  unfold State.readyToFetch
  dsimp only
  split
  · rw [State.byte_setByte_other _ _ h]
    rfl
  · rfl

theorem State.takesInterrupt_readyToFetch (s : State) : s.readyToFetch.takesInterrupt = false := by
  unfold State.readyToFetch
  dsimp only
  split
  · rw [Bool.eq_false_iff, Ne, State.takesInterrupt_iff, State.byte_setByte_same, BitVec.getLsbD_and]
    simp
  · next h => exact Bool.eq_false_of_not_eq_true h

/-! ## The placed instruction -/

/-- No placed byte lies in the 8-bit area, or outside the six. -/
theorem ne_placed {pc a : Word} (hpc : pc.toNat ≤ 0xFFBA) (ha : a.toNat < pc.toNat ∨ pc.toNat + 6 ≤ a.toNat)
    {k : Nat} (hk : k < 6) : a ≠ pc + BitVec.ofNat 16 k := by
  intro heq
  subst heq
  rw [BitVec.toNat_add, BitVec.toNat_ofNat] at ha
  omega

theorem State.byte_withFetchWord (s : State) (nbits w : Nat) {k : Nat} (hk : k < 6) :
    (tableBytes nbits w)[k]? = some ((s.withFetchWord nbits w).byte (s.pc + BitVec.ofNat 16 k)) :=
  State.byte_storeBytes _ (by rw [length_tableBytes]; decide) (by rwa [length_tableBytes])

theorem State.byte_withFetchWord_other {s : State} (nbits w : Nat) (hpc : s.pc.toNat ≤ 0xFFBA) {a : Word}
    (ha : a.toNat < s.pc.toNat ∨ s.pc.toNat + 6 ≤ a.toNat) :
    (s.withFetchWord nbits w).byte a = s.readyToFetch.byte a := by
  refine State.byte_storeBytes_other _ fun k hk => ne_placed hpc ha ?_
  rwa [length_tableBytes] at hk

theorem State.withFetchWord_keeps (s : State) (nbits w : Nat) :
    (s.withFetchWord nbits w).regs = s.regs ∧ (s.withFetchWord nbits w).flags = s.flags ∧
      (s.withFetchWord nbits w).halted = false ∧ (s.withFetchWord nbits w).config = s.config ∧
      (s.withFetchWord nbits w).schedule = .move .processor s.schedule := by
  obtain ⟨hregs, hflags, hhalted, hconfig, hschedule⟩ :=
    State.storeBytes_keeps s.readyToFetch s.pc (tableBytes nbits w)
  obtain ⟨hregs', hflags', hhalted', hconfig', hschedule'⟩ := State.readyToFetch_keeps s
  exact ⟨hregs.trans hregs', hflags.trans hflags', hhalted.trans hhalted', hconfig.trans hconfig',
    hschedule.trans hschedule'⟩

end Machine

namespace Claims

open Sys2Proof.Machine

/-- The step after a placement fetches: INTS and INTE lie above the bytes placed. -/
theorem fetches_withFetchWord {s : State} (nbits w : Nat) (hpc : s.pc.toNat ≤ 0xFFBA) :
    Fetches (s.withFetchWord nbits w) := by
  obtain ⟨-, -, hhalted, hconfig, hschedule⟩ := State.withFetchWord_keeps s nbits w
  obtain ⟨-, -, -, hconfig', -⟩ := State.readyToFetch_keeps s
  refine ⟨by rw [State.processorMoves, hschedule]; rfl, hhalted, ?_⟩
  rw [State.takesInterrupt_congr (hconfig.trans hconfig'.symm) (State.byte_withFetchWord_other nbits w hpc ?_)
    (State.byte_withFetchWord_other nbits w hpc ?_), State.takesInterrupt_readyToFetch] <;> bv_omega

/-- The first two of the bytes placed decode to the table row's instruction. -/
theorem decode_withFetchWord (s : State) {nbits w : Nat} {i : Instr} (h : decodeTableWord nbits w = some i) :
    ∃ rest, decode (bytesAtPc (s.withFetchWord nbits w)) = .ok (i, rest) := by
  obtain ⟨rest, hd⟩ := decode_of_decodeTableWord h
  obtain ⟨b1, b2, rest', hl⟩ := tableBytes_eq_cons nbits w
  have hregs := (State.withFetchWord_keeps s nbits w).1
  have hpc : (s.withFetchWord nbits w).pc = s.pc := congrArg Regs.r7 hregs
  have hfirst := State.byte_withFetchWord s nbits w (k := 0) (by decide)
  have hsecond := State.byte_withFetchWord s nbits w (k := 1) (by decide)
  rw [hl] at hd hfirst hsecond
  have hb1 : b1 = (s.withFetchWord nbits w).byte s.pc := by simpa using hfirst
  have hb2 : b2 = (s.withFetchWord nbits w).byte (s.pc + 1) := by simpa using hsecond
  rw [bytesAtPc, hpc, ← hb1, ← hb2]
  exact decode_pair_of_decode hd

/-- Settles O58: after the placement the step fetches, and the bytes at R7 decode to the row's instruction. -/
theorem placedInstrRuns : Obligations.PlacedInstrRuns := by
  intro s nbits w i hpc hrow
  obtain ⟨hregs, hflags, hhalted, hconfig, hschedule⟩ := State.withFetchWord_keeps s nbits w
  have hreg (r : Reg) : (s.withFetchWord nbits w).reg r = s.reg r := by rw [State.reg, hregs, State.reg]
  have hpc' : (s.withFetchWord nbits w).pc = s.pc := hreg .r7
  obtain ⟨rest, hd⟩ := decode_withFetchWord s hrow
  have hlen : (encode i).length ≤ 2 := by
    rcases length_encode i with h | h <;> omega
  have hstep := stepRunsDecodedInstr _ i rest (fetches_withFetchWord nbits w hpc) hd (by rw [hpc']; omega)
  rw [hpc'] at hstep
  refine ⟨_, hstep, State.pc_setPc _ _, fun r h7 => ?_, hflags, hconfig, hhalted, ?_,
    fun k hk => State.byte_withFetchWord s nbits w hk, fun a ha hne => ?_⟩
  · rw [State.reg_setPc_ne _ _ h7, State.afterSchedule_reg, hreg]
  · rw [State.setPc_schedule, State.afterSchedule_schedule, hschedule, Schedule.tail_move]
  · rw [State.setPc_byte, State.afterSchedule_byte, State.byte_withFetchWord_other nbits w hpc ha,
      State.byte_readyToFetch s hne]

end Claims

end Sys2Proof
end
